-- ==== Sys2Proof/Word.lean ====
section
/-! DEFINITION. The machine's word and byte types and the extensions of a field to a word (spec rules R10, R13, R15). -/

namespace Sys2Proof

/-- A `u32`: a register, a memory word, an address or a pc value (R13). -/
abbrev Word := BitVec 32

/-- One byte of memory or of a character channel (R46). -/
abbrev Byte := BitVec 8

/-- A register index, one of the 32 indices 0..31; there are no other register names (R30, R31, R108). -/
abbrev Reg := BitVec 5

/-- A 6-bit opcode or function code (R10, R109). -/
abbrev Code := BitVec 6

end Sys2Proof
end

