-- ==== Sys2Proof/Config.lean ====
section
/-! DEFINITION. The implementation parameters of spec rules R11 and R12. They are configuration inputs,
constant for a run (R8). Their defaults are in Decode.lean (OPCODE_MAP) and Machine/Defaults.lean (the rest).
The spec leaves no value free, so this file holds no free value. -/

namespace Sys2Proof

/-- `OPCODE_MAP` (R12, R113): the function code of each of the 13 register-form operations and the opcode of
each of the 4 immediate-form operations. -/
structure OpcodeMap where
  add   : Code
  sub   : Code
  mult  : Code
  multu : Code
  div   : Code
  divu  : Code
  mfhi  : Code
  mflo  : Code
  lis   : Code
  slt   : Code
  sltu  : Code
  jr    : Code
  jalr  : Code
  beq   : Code
  bne   : Code
  lw    : Code
  sw    : Code
deriving DecidableEq, Repr

/-- The configuration inputs of R8, as R12 names them. -/
structure Config where
  /-- `MEM_WORDS`: the number of 32-bit words of storage (R11). -/
  memWords    : Nat
  /-- `HALT_ADDR`: the halt sentinel (R20, D3). -/
  haltAddr    : Word
  /-- `MMIO_OUT_ADDR`: the address at which `sw` emits a character (R70, D4). -/
  mmioOutAddr : Word
  /-- `MMIO_IN_ADDR`: the address at which `lw` consumes a character (R70, D4). -/
  mmioInAddr  : Word
  /-- `LOAD_WORD`: the word index at which the loader places the image; read by the loader only (R12, D16). -/
  loadWord    : Nat
  /-- `OPCODE_MAP` (R113, D2). -/
  opcodes     : OpcodeMap
deriving DecidableEq, Repr

end Sys2Proof
end

