-- ==== Sys2Proof/Syntax.lean ====
section
/-! DEFINITION. The instructions, one constructor per row of spec/opcode_table.json, the decoder's descriptors
(R103, R104) and the names of the handlers that the dispatch tables select (R109, R113). -/

namespace Sys2Proof

/-- An instruction with the operands that R113 says it reads and writes. The fields R106 calls ignored are no
operands and are not here. `imm` is the descriptor's 32-bit value `sext_32(w[15:0])` (R104), so it is a signed
16-bit value in every well-formed instruction. -/
inductive Instr where
  /-- R170 -/
  | add   (d s t : Reg)
  /-- R171 -/
  | sub   (d s t : Reg)
  /-- R172 -/
  | mult  (s t : Reg)
  /-- R173 -/
  | multu (s t : Reg)
  /-- R174 -/
  | div   (s t : Reg)
  /-- R175 -/
  | divu  (s t : Reg)
  /-- R176 -/
  | mfhi  (d : Reg)
  /-- R177 -/
  | mflo  (d : Reg)
  /-- R250 -/
  | lis   (d : Reg)
  /-- R178 -/
  | slt   (d s t : Reg)
  /-- R179 -/
  | sltu  (d s t : Reg)
  /-- R220 -/
  | jr    (s : Reg)
  /-- R221 -/
  | jalr  (s : Reg)
  /-- R222 -/
  | beq   (s t : Reg) (imm : Word)
  /-- R224 -/
  | bne   (s t : Reg) (imm : Word)
  /-- R251 -/
  | lw    (s t : Reg) (imm : Word)
  /-- R252 -/
  | sw    (s t : Reg) (imm : Word)
deriving DecidableEq, Repr

/-- What the decoder yields for a word: exactly two kinds (R102, 90_conflicts.md C9). -/
inductive Descriptor where
  /-- R103: `shamt` is not part of the descriptor. -/
  | registerForm  (d s t : Reg) (code : Code)
  /-- R104 -/
  | immediateForm (s t : Reg) (code : Code) (imm : Word)
deriving DecidableEq, Repr

/-- The 13 operations registered in `RTAB` (R113, R114). -/
inductive ROp where
  | add | sub | mult | multu | div | divu | mfhi | mflo | lis | slt | sltu | jr | jalr
deriving DecidableEq, Repr

/-- The 4 operations registered in `ITAB` (R113, R114). -/
inductive IOp where
  | beq | bne | lw | sw
deriving DecidableEq, Repr

/-- Every register-form operation, once. -/
def ROp.all : List ROp :=
  [.add, .sub, .mult, .multu, .div, .divu, .mfhi, .mflo, .lis, .slt, .sltu, .jr, .jalr]

/-- Every immediate-form operation, once. -/
def IOp.all : List IOp := [.beq, .bne, .lw, .sw]

/-- Why a word is no instruction: the slot that its code selects is not registered (R111). -/
inductive BadSlot where
  /-- An unregistered function code of a register-form word. -/
  | rtab (code : Code)
  /-- An unregistered opcode of an immediate-form word. -/
  | itab (code : Code)
deriving DecidableEq, Repr

end Sys2Proof
end

