-- ==== Sys2Proof/WellFormed.lean ====
section
/-! DEFINITION. When an instruction, an opcode map and a configuration are well-formed. Every register index is
legal in every position (R108), so an instruction is checked for its immediate alone. -/

namespace Sys2Proof

/-- An immediate is a signed 16-bit value, -32768..32767 (R104). -/
def immWf (imm : Word) : Bool := decide (-32768 ≤ imm.toInt) && decide (imm.toInt ≤ 32767)

/-- Well-formed instructions: those that some word encodes (R104, R108). -/
def Instr.wf : Instr → Bool
  | .add _ _ _ => true
  | .sub _ _ _ => true
  | .mult _ _ => true
  | .multu _ _ => true
  | .div _ _ => true
  | .divu _ _ => true
  | .mfhi _ => true
  | .mflo _ => true
  | .lis _ => true
  | .slt _ _ _ => true
  | .sltu _ _ _ => true
  | .jr _ => true
  | .jalr _ => true
  | .beq _ _ imm => immWf imm
  | .bne _ _ imm => immWf imm
  | .lw _ _ imm => immWf imm
  | .sw _ _ imm => immWf imm

/-- The function code that registers `op` in `RTAB` (R113). -/
def OpcodeMap.funct (m : OpcodeMap) : ROp → Code
  | .add => m.add
  | .sub => m.sub
  | .mult => m.mult
  | .multu => m.multu
  | .div => m.div
  | .divu => m.divu
  | .mfhi => m.mfhi
  | .mflo => m.mflo
  | .lis => m.lis
  | .slt => m.slt
  | .sltu => m.sltu
  | .jr => m.jr
  | .jalr => m.jalr

/-- The opcode that registers `op` in `ITAB` (R113). -/
def OpcodeMap.opcode (m : OpcodeMap) : IOp → Code
  | .beq => m.beq
  | .bne => m.bne
  | .lw => m.lw
  | .sw => m.sw

/-- Each slot holds one handler and each operation is reached (R110, R114): the function codes differ, the
opcodes differ, and no opcode is 0, whose `ITAB` slot no word selects (R112). -/
def OpcodeMap.wf (m : OpcodeMap) : Bool :=
  decide (ROp.all.map m.funct).Nodup && decide (IOp.all.map m.opcode).Nodup &&
    IOp.all.all (fun op => m.opcode op != 0#6)

/-- The legal configurations (R11, R12): `1 ≤ MEM_WORDS ≤ 2^30`, `HALT_ADDR` a multiple of 4, the two MMIO
addresses different, and a well-formed opcode map. -/
def Config.wf (c : Config) : Bool :=
  decide (1 ≤ c.memWords) && decide (c.memWords ≤ 2 ^ 30) && decide (c.haltAddr.toNat % 4 = 0) &&
    (c.mmioOutAddr != c.mmioInAddr) && c.opcodes.wf

end Sys2Proof
end

