-- ==== Sys2Proof/Decode.lean ====
section
/-! DEFINITION. The decoder (R101 to R105), the dispatch tables (R109 to R113) and, after them, the encoder
written from the same bit layout (R101, R113). -/

namespace Sys2Proof

/-! ### The default opcode map -/

/-- The code values of R113. Only `add` and `lw` come from the spec's source; the spec marks the other 15 as
general knowledge and takes them as its decision D2 (log entry 2). -/
def OpcodeMap.default : OpcodeMap where
  add   := 0x20#6
  sub   := 0x22#6
  mult  := 0x18#6
  multu := 0x19#6
  div   := 0x1A#6
  divu  := 0x1B#6
  mfhi  := 0x10#6
  mflo  := 0x12#6
  lis   := 0x14#6
  slt   := 0x2A#6
  sltu  := 0x2B#6
  jr    := 0x08#6
  jalr  := 0x09#6
  beq   := 0x04#6
  bne   := 0x05#6
  lw    := 0x23#6
  sw    := 0x2B#6

/-! ### The fields of a word (R101) -/

/-- `w[31:26]` -/
def opcodeField (w : Word) : Code := w.extractLsb' 26 6
/-- `w[25:21]` -/
def sField (w : Word) : Reg := w.extractLsb' 21 5
/-- `w[20:16]` -/
def tField (w : Word) : Reg := w.extractLsb' 16 5
/-- `w[15:11]` -/
def dField (w : Word) : Reg := w.extractLsb' 11 5
/-- `w[5:0]` -/
def functField (w : Word) : Code := w.extractLsb' 0 6
/-- `sext_32(w[15:0])` (R15, R104) -/
def immField (w : Word) : Word := (w.extractLsb' 0 16).signExtend 32

/-! ### The decoder: total, and it reads no machine state (R105) -/

/-- R102 to R104. Unknown codes are kept as they are; legality is decided at dispatch (R116). -/
def descriptor (w : Word) : Descriptor :=
  if opcodeField w = 0#6 then .registerForm (dField w) (sField w) (tField w) (functField w)
  else .immediateForm (sField w) (tField w) (opcodeField w) (immField w)

/-! ### The dispatch multiplexer -/

/-- `RTAB`: the register-form handler at a function code, if one is registered there (R109, R110). -/
def rtab (m : OpcodeMap) (code : Code) : Option ROp := ROp.all.find? fun op => m.funct op == code

/-- `ITAB`: the immediate-form handler at an opcode, if one is registered there (R109, R110). -/
def itab (m : OpcodeMap) (code : Code) : Option IOp := IOp.all.find? fun op => m.opcode op == code

/-- A register-form operation with the descriptor fields that R113 says it uses. -/
def ROp.instr (d s t : Reg) : ROp → Instr
  | .add => .add d s t
  | .sub => .sub d s t
  | .mult => .mult s t
  | .multu => .multu s t
  | .div => .div s t
  | .divu => .divu s t
  | .mfhi => .mfhi d
  | .mflo => .mflo d
  | .lis => .lis d
  | .slt => .slt d s t
  | .sltu => .sltu d s t
  | .jr => .jr s
  | .jalr => .jalr s

/-- An immediate-form operation with its operands (R113). -/
def IOp.instr (s t : Reg) (imm : Word) : IOp → Instr
  | .beq => .beq s t imm
  | .bne => .bne s t imm
  | .lw => .lw s t imm
  | .sw => .sw s t imm

/-- The handler that a descriptor selects, with its operands, or the unregistered slot (R109, R111). -/
def dispatch (m : OpcodeMap) : Descriptor → Except BadSlot Instr
  | .registerForm d s t code =>
    match rtab m code with
    | some op => .ok (op.instr d s t)
    | none => .error (.rtab code)
  | .immediateForm s t code imm =>
    match itab m code with
    | some op => .ok (op.instr s t imm)
    | none => .error (.itab code)

/-- The instruction that a word stands for under an opcode map, or the unregistered slot it selects. -/
def decode (m : OpcodeMap) (w : Word) : Except BadSlot Instr := dispatch m (descriptor w)

/-- The instruction of one row of spec/opcode_table.json under the default opcode map: an instruction is one
32-bit word (R100), whose bits the table numbers as R14 does. -/
def decodeTableWord (nbits w : Nat) : Option Instr :=
  match decode OpcodeMap.default (BitVec.ofNat 32 (w % 2 ^ nbits)) with
  | .ok i => some i
  | .error _ => none

/-! ### The encoder -/

/-- `000000 s t d shamt funct`, most significant field first, with `shamt` zero (R101). -/
def rWord (s t d : Reg) (funct : Code) : Word := 0#6 ++ s ++ t ++ d ++ 0#5 ++ funct

/-- `opcode s t imm`, most significant field first (R101). -/
def iWord (opcode : Code) (s t : Reg) (imm : Word) : Word := opcode ++ s ++ t ++ imm.extractLsb' 0 16

/-- The word of an instruction with every ignored field zero (R101, R113). -/
def encode (m : OpcodeMap) : Instr → Word
  | .add d s t => rWord s t d m.add
  | .sub d s t => rWord s t d m.sub
  | .mult s t => rWord s t 0#5 m.mult
  | .multu s t => rWord s t 0#5 m.multu
  | .div s t => rWord s t 0#5 m.div
  | .divu s t => rWord s t 0#5 m.divu
  | .mfhi d => rWord 0#5 0#5 d m.mfhi
  | .mflo d => rWord 0#5 0#5 d m.mflo
  | .lis d => rWord 0#5 0#5 d m.lis
  | .slt d s t => rWord s t d m.slt
  | .sltu d s t => rWord s t d m.sltu
  | .jr s => rWord s 0#5 0#5 m.jr
  | .jalr s => rWord s 0#5 0#5 m.jalr
  | .beq s t imm => iWord m.beq s t imm
  | .bne s t imm => iWord m.bne s t imm
  | .lw s t imm => iWord m.lw s t imm
  | .sw s t imm => iWord m.sw s t imm

end Sys2Proof
end

