-- ==== Sys2Proof/Machine/Defaults.lean ====
section
/-! DEFINITION. The default of every implementation parameter (spec rules R11, R12; 92_eei_decisions.md). -/

namespace Sys2Proof

/-- The default capacity: 4,194,304 words, 16 MiB (R11). -/
def Config.defaultMemWords : Nat := 4194304

/-- The default of every parameter (R12). The halt sentinel is the source's example value (log entry 3); the MMIO
addresses are the spec's decision D4, from general knowledge (log entry 4). -/
def Config.default : Config where
  memWords    := Config.defaultMemWords
  haltAddr    := 0x8123456C#32
  mmioOutAddr := 0xFFFF000C#32
  mmioInAddr  := 0xFFFF0004#32
  loadWord    := 0
  opcodes     := OpcodeMap.default

end Sys2Proof
end

