-- ==== Sys2Proof/Machine/State.lean ====
section
/-! DEFINITION. The state of the machine, the status of a step, and the reasons a step can stop (spec rules R8,
R30 to R50, R300 to R308). -/

namespace Sys2Proof.Machine

/-- Memory `M` (R44): the bytes that are not zero, by rising address. A word of `M` is four bytes, the most
significant at the lowest address; inside the block that order is not observable (R74, log entry 5). -/
abbrev Memory := List Host.Cell

/-- The complete architectural state `(x, pc, hi, lo, M)` (R50), the host channels beside it (R46), and the
configuration inputs, which no instruction changes (R8). -/
structure State where
  /-- The configuration inputs (R8, R12). -/
  cfg    : Config
  /-- `x[0] .. x[31]` (R30). -/
  regs   : Vector Word 32
  /-- The program counter, a byte address (R36). -/
  pc     : Word
  /-- `hi` (R40). -/
  hi     : Word
  /-- `lo` (R40). -/
  lo     : Word
  /-- `M` (R44). -/
  mem    : Memory
  /-- `IN`: the bytes not yet read, the next one first (R46). -/
  input  : List Byte
  /-- `OUT`: the bytes emitted, the oldest first (R46). -/
  output : List Byte
deriving DecidableEq, Repr

/-- What a step returns, with the 32-bit value it carries (R300). -/
inductive Status where
  /-- R301; the new pc. -/
  | continuing (pc : Word)
  /-- R302; pc, which is `HALT_ADDR`. -/
  | halted (pc : Word)
  /-- R303; the misaligned pc. -/
  | unalignedInstructionFetch (pc : Word)
  /-- R304; the out-of-range pc. -/
  | outOfRangeInstructionFetch (pc : Word)
  /-- R305; the misaligned byte address. -/
  | unalignedMemoryAccess (addr : Word)
  /-- R306; the out-of-range byte address. -/
  | outOfRangeMemoryAccess (addr : Word)
  /-- R307; the address of the instruction. -/
  | invalidInstruction (addr : Word)
deriving DecidableEq, Repr

/-- The terminal statuses of R300, each with its payload and with the final state of the run, which R154 makes
part of what a run shows (log entry 1). Each is what the spec says the step returns, so each is safe. -/
inductive Fault where
  /-- Raised by the halt check, when pc is `HALT_ADDR` (R142, R302). It is the clean end of a run and no fault of
  the spec's; it stands here because a step that stops is not a next state (log entry 1). Safe. -/
  | halted (pc : Word) (final : State)
  /-- Raised by the fetch, when pc is no multiple of 4 (R141, R303). Safe. -/
  | unalignedInstructionFetch (pc : Word) (final : State)
  /-- Raised by the fetch, when pc lies beyond storage (R143, R304). Safe. -/
  | outOfRangeInstructionFetch (pc : Word) (final : State)
  /-- Raised by `lw` and `sw`, when the byte address is in range and no multiple of 4 (R65, R305). Safe. -/
  | unalignedMemoryAccess (addr : Word) (final : State)
  /-- Raised by `lw` and `sw`, when the word address is beyond storage, and by `lis`, when its inline word is
  (R64, R69, R306). Safe. -/
  | outOfRangeMemoryAccess (addr : Word) (final : State)
  /-- Raised at dispatch by an unregistered slot (R111), by `div` and `divu` on a zero divisor (R182) and by `div`
  on signed overflow (R183); see R307. Safe. -/
  | invalidInstruction (addr : Word) (final : State)
deriving DecidableEq, Repr

/-- What is refused: no run of the machine exists. No step of a machine is ever refused. -/
inductive Refusal where
  /-- Raised by no instruction: every row of the opcode table has its meaning. Safe. -/
  | notModelled (mnemonic : String)
  /-- Raised when a run that has returned a terminal status is stepped again (R153, D17, U3). Safe. -/
  | steppedAfterTerminal (status : Status)
  /-- Raised by creation: the capacity in bytes is no multiple of 4 or exceeds 2^32 (R11, U11). Safe. -/
  | illegalCapacity (bytes : Nat)
  /-- Raised by creation: a parameter of R12 has an illegal value. Safe. -/
  | illegalParameter
  /-- Raised by the loader: the image is no whole number of words (R342, D23, U10). Safe. -/
  | imageNotWords (bytes : Nat)
  /-- Raised by the loader: `LOAD_WORD + N > MEM_WORDS` (R346, U9). Safe. -/
  | imageTooLarge (words : Nat)
deriving DecidableEq, Repr

/-- A run of the machine: its state and the status of the last step (R155). The status stands beside the state and
not in it, because no program can read it (R43). -/
structure Run where
  state  : State
  status : Status
deriving DecidableEq, Repr

/-- Machine creation, which is the block's reset (R340): everything is zero, `OUT` is empty (R47), the parameters
have their defaults (R12). `IN` is whatever the host supplies (R47): here nothing, and no claim rests on that
(log entry 6). The state at a program's first instruction is `launch` of Machine/Loader.lean (R345). -/
def State.reset : State where
  cfg    := Config.default
  regs   := Vector.replicate 32 0#32
  pc     := 0#32
  hi     := 0#32
  lo     := 0#32
  mem    := []
  input  := []
  output := []

end Sys2Proof.Machine
end

