-- ==== Sys2Proof/Machine/Ops.lean ====
section
/-! DEFINITION. The named operations over registers, memory and the character channels, and how a handler ends:
by completing (R148, R149) or by raising a terminal status (R18). The block has no trap entry and no return from
one (R310, R312): to raise a status is all that a fault does. -/

namespace Sys2Proof.Machine

/-- The outcome of a handler and of a step. -/
abbrev Result := Host.Outcome State Fault Refusal

/-! ### Registers -/

/-- `x[r]` (R16). -/
def State.readReg (s : State) (r : Reg) : Word := s.regs[r.toNat]'r.isLt

/-- `x[r] <- v` (R16). A write to `x[0]` takes place here and is overwritten when the handler completes. -/
def State.writeReg (s : State) (r : Reg) (v : Word) : State := { s with regs := s.regs.set r.toNat v r.isLt }

/-- `pc <- a` (R16). -/
def State.setPc (s : State) (a : Word) : State := { s with pc := a }

/-- The pair `hi`, `lo` written together, as every multiply and divide does (R40). -/
def State.setHiLo (s : State) (hi lo : Word) : State := { s with hi := hi, lo := lo }

/-- Step 4's advance, `pc <- A + 4` modulo 2^32, before the handler's own effect (R145). -/
def State.advance (s : State) : State := s.setPc (s.pc + 4#32)

/-! ### How a handler ends -/

/-- Step 8 and step 10: `x[0] <- 0` unconditionally, and the step continues (R148, R149). -/
def complete (s : State) : Result := .next (s.writeReg 0#5 0#32)

/-- `raise S(v)`: the step ends with a terminal status, and what was written before it stays (R18). -/
def raise (status : Word → State → Fault) (v : Word) (s : State) : Result := .fault (status v s)

/-! ### Addresses -/

/-- `toU(a) >> 2`, the index of the word that holds a byte address (R17, R63). -/
def wordAddr (a : Word) : Nat := a.toNat / 4

/-- `a[1:0] = 0` (R65, R141). -/
def aligned (a : Word) : Bool := a.toNat % 4 == 0

/-- Storage backs the word that holds a byte address (R44, R61). -/
def State.inRange (s : State) (a : Word) : Bool := decide (wordAddr a < s.cfg.memWords)

/-! ### Memory -/

/-- The byte at an address; an unlisted one is zero, the reset contents of memory (R45). -/
def Memory.readByte : Memory → Nat → Byte
  | [], _ => 0#8
  | (b, v) :: rest, a => if a = b then v else Memory.readByte rest a

/-- Memory with one byte written, in the canonical form: addresses rise and no listed byte is zero. -/
def Memory.writeByte : Memory → Nat → Byte → Memory
  | [], a, v => if v = 0#8 then [] else [(a, v)]
  | (b, w) :: rest, a, v =>
    if a < b then (if v = 0#8 then (b, w) :: rest else (a, v) :: (b, w) :: rest)
    else if a = b then (if v = 0#8 then rest else (a, v) :: rest)
    else (b, w) :: Memory.writeByte rest a v

/-- The canonical form of a memory: equal memories are equal lists. -/
abbrev Memory.wf (m : Memory) : Prop := m.Pairwise (fun c d => c.1 < d.1) ∧ ∀ c ∈ m, c.2 ≠ 0#8

/-- `M[k]`, from its four bytes (R61, log entry 5). -/
def Memory.readWord (m : Memory) (k : Nat) : Word :=
  m.readByte (4 * k) ++ m.readByte (4 * k + 1) ++ m.readByte (4 * k + 2) ++ m.readByte (4 * k + 3)

/-- `M[k] <- v`, into its four bytes (R61, log entry 5). -/
def Memory.writeWord (m : Memory) (k : Nat) (v : Word) : Memory :=
  (((m.writeByte (4 * k) (v.extractLsb' 24 8)).writeByte (4 * k + 1) (v.extractLsb' 16 8)).writeByte
    (4 * k + 2) (v.extractLsb' 8 8)).writeByte (4 * k + 3) (v.extractLsb' 0 8)

/-- `MemRead(a, 4)` (R17). -/
def State.memRead (s : State) (a : Word) : Word := s.mem.readWord (wordAddr a)

/-- `MemWrite(a, 4, v)` (R17). -/
def State.memWrite (s : State) (a v : Word) : State := { s with mem := s.mem.writeWord (wordAddr a) v }

/-- The checks of one ordinary data access, range and then alignment (R64, R65, R66), before anything is written
(R254); `access` is what happens when both pass. -/
def checkedAccess (s : State) (a : Word) (access : Result) : Result :=
  if s.inRange a then
    if aligned a then access else raise .unalignedMemoryAccess a s
  else raise .outOfRangeMemoryAccess a s

/-! ### The character channels (R46) -/

/-- `InByte()`: the next input byte and the state with it consumed, or `none` and nothing consumed. -/
def State.inByte (s : State) : Option (Byte × State) :=
  match s.input with
  | [] => none
  | c :: rest => some (c, { s with input := rest })

/-- `OutByte(b)`: the byte appended to the output channel. -/
def State.outByte (s : State) (b : Byte) : State := { s with output := s.output ++ [b] }

end Sys2Proof.Machine
end

