-- ==== Sys2Proof/Machine/Flags.lean ====
section
/-! DEFINITION. The comparisons. The block has no flag and no condition code (R42): a comparison's result goes to a
general register as 0 or 1, or decides a branch within the branch's own step. -/

namespace Sys2Proof.Machine

/-- `a <s b` (R13). -/
def lessSigned (a b : Word) : Bool := decide (a.toInt < b.toInt)

/-- `a <u b` (R13). -/
def lessUnsigned (a b : Word) : Bool := decide (a.toNat < b.toNat)

/-- A comparison's result as a register value: 1 or 0 (R42). -/
def boolWord (b : Bool) : Word := if b then 1#32 else 0#32

end Sys2Proof.Machine
end

