-- ==== Sys2Proof/Machine/Alu.lean ====
section
/-! DEFINITION. The ALU instructions that write a general register: `add`, `sub`, `slt`, `sltu` (41_alu.md). Each
reads its sources before it writes (R184). -/

namespace Sys2Proof.Machine

/-- What every ALU instruction with a general-register result does: `x[d] <- v`, pc at `A + 4` (R145, R148). -/
def writeResult (d : Reg) (v : Word) (st : State) : Result := complete (st.advance.writeReg d v)

/-- `add $d, $s, $t`: 32-bit wrap-around, no overflow trap (R170, R180). -/
def execAdd (d s t : Reg) (st : State) : Result := writeResult d (st.readReg s + st.readReg t) st

/-- `sub $d, $s, $t`: 32-bit wrap-around, no overflow trap (R171, R180). -/
def execSub (d s t : Reg) (st : State) : Result := writeResult d (st.readReg s - st.readReg t) st

/-- `slt $d, $s, $t` (R178). -/
def execSlt (d s t : Reg) (st : State) : Result :=
  writeResult d (boolWord (lessSigned (st.readReg s) (st.readReg t))) st

/-- `sltu $d, $s, $t` (R179). -/
def execSltu (d s t : Reg) (st : State) : Result :=
  writeResult d (boolWord (lessUnsigned (st.readReg s) (st.readReg t))) st

end Sys2Proof.Machine
end

