-- ==== Sys2Proof/Machine/Operands.lean ====
section
/-! DEFINITION. The operand forms: the effective address of `lw` and `sw` and the target of a branch. The block has
no other (R107, R108, R253). -/

namespace Sys2Proof.Machine

/-- `byte_addr = x[s] + sext_32(imm)` modulo 2^32; `imm` is already extended in the instruction (R62, R104). -/
def effectiveAddress (st : State) (s : Reg) (imm : Word) : Word := st.readReg s + imm

/-- `pc + (imm << 2)` modulo 2^32, where `pc` is already the address after the branch (R222, R223). -/
def branchTarget (pc imm : Word) : Word := pc + (imm <<< 2)

end Sys2Proof.Machine
end

