-- ==== Sys2Proof/Machine/Branch.lean ====
section
/-! DEFINITION. The branch and jump controller (42_branch_jump.md). There is no delay slot (R225), and no target is
checked before the next fetch (R226). -/

namespace Sys2Proof.Machine

/-- The link register (R33, R221). -/
def linkReg : Reg := 31#5

/-- A conditional branch: the target when the condition holds, else `A + 4` (R222, R223). -/
def branchIf (cond : Bool) (imm : Word) (st : State) : Result :=
  let st := st.advance
  complete (if cond then st.setPc (branchTarget st.pc imm) else st)

/-- `jr $s` (R220). -/
def execJr (s : Reg) (st : State) : Result := complete (st.advance.setPc (st.readReg s))

/-- `jalr $s`: the source is read before the link is written (R221). -/
def execJalr (s : Reg) (st : State) : Result :=
  let tmp := st.readReg s
  let st := st.advance
  complete ((st.writeReg linkReg st.pc).setPc tmp)

/-- `beq $s, $t, i` (R222). -/
def execBeq (s t : Reg) (imm : Word) (st : State) : Result :=
  branchIf (st.readReg s == st.readReg t) imm st

/-- `bne $s, $t, i` (R224). -/
def execBne (s t : Reg) (imm : Word) (st : State) : Result :=
  branchIf (st.readReg s != st.readReg t) imm st

end Sys2Proof.Machine
end

