-- ==== Sys2Proof/Machine/LoadStore.lean ====
section
/-! DEFINITION. The load/store datapath: `lis`, `lw`, `sw` (43_load_store.md), with the character I/O that `lw` and
`sw` intercept (R70 to R73). -/

namespace Sys2Proof.Machine

/-- `lis $d`: the word after the instruction, which is data; no MMIO intercept, no halt check, and an alignment
check that could not fail (R69, R250). -/
def execLis (d : Reg) (st : State) : Result :=
  let st := st.advance
  let p := st.pc
  if st.inRange p then complete ((st.writeReg d (st.memRead p)).setPc (p + 4#32))
  else raise .outOfRangeMemoryAccess p st

/-- `lw $t, i($s)` (R251): at `MMIO_IN_ADDR` one byte of input, zero-extended, or nothing when there is none
(R71). -/
def execLw (s t : Reg) (imm : Word) (st : State) : Result :=
  let ba := effectiveAddress st s imm
  let st := st.advance
  if ba = st.cfg.mmioInAddr then
    match st.inByte with
    | some (c, st') => complete (st'.writeReg t (c.zeroExtend 32))
    | none => complete st
  else checkedAccess st ba (complete (st.writeReg t (st.memRead ba)))

/-- `sw $t, i($s)` (R252): at `MMIO_OUT_ADDR` the low byte of the register to the output channel (R72). -/
def execSw (s t : Reg) (imm : Word) (st : State) : Result :=
  let ba := effectiveAddress st s imm
  let v := st.readReg t
  let st := st.advance
  if ba = st.cfg.mmioOutAddr then complete (st.outByte (v.extractLsb' 0 8))
  else checkedAccess st ba (complete (st.memWrite ba v))

end Sys2Proof.Machine
end

