-- ==== Sys2Proof/Machine/MulDiv.lean ====
section
/-! DEFINITION. Multiply, divide and the moves from HI and LO (41_alu.md). Results are computed exactly, as
integers, and narrowed at the end. -/

namespace Sys2Proof.Machine

/-- The two halves of a 64-bit product into `hi` and `lo`, pc at `A + 4` (R172, R173). -/
def writeProduct (p : BitVec 64) (st : State) : Result :=
  complete (st.advance.setHiLo (p.extractLsb' 32 32) (p.extractLsb' 0 32))

/-- A quotient into `lo` and a remainder into `hi`, each modulo 2^32, pc at `A + 4` (R174, R175). -/
def writeQuotient (q r : Int) (st : State) : Result :=
  complete (st.advance.setHiLo (BitVec.ofInt 32 r) (BitVec.ofInt 32 q))

/-- `mult $s, $t`: signed 32×32→64 multiply (R172). -/
def execMult (s t : Reg) (st : State) : Result :=
  writeProduct (BitVec.ofInt 64 ((st.readReg s).toInt * (st.readReg t).toInt)) st

/-- `multu $s, $t`: unsigned 32×32→64 multiply (R173). -/
def execMultu (s t : Reg) (st : State) : Result :=
  writeProduct (BitVec.ofNat 64 ((st.readReg s).toNat * (st.readReg t).toNat)) st

/-- `div $s, $t`: the quotient truncates toward zero and the remainder has the dividend's sign (R174, R181). A zero
divisor (R182) and signed overflow (R183) end the step with `InvalidInstruction(A)`. -/
def execDiv (s t : Reg) (st : State) : Result :=
  let a := (st.readReg s).toInt
  let b := (st.readReg t).toInt
  if b = 0 then raise .invalidInstruction st.pc st.advance
  else if a = -2147483648 ∧ b = -1 then raise .invalidInstruction st.pc st.advance
  else
    let q := a.tdiv b
    writeQuotient q (a - q * b) st

/-- `divu $s, $t` (R175); a zero divisor ends the step with `InvalidInstruction(A)` (R182). -/
def execDivu (s t : Reg) (st : State) : Result :=
  let a := (st.readReg s).toNat
  let b := (st.readReg t).toNat
  if b = 0 then raise .invalidInstruction st.pc st.advance
  else writeQuotient (a / b : Nat) (a % b : Nat) st

/-- `mfhi $d` (R176). -/
def execMfhi (d : Reg) (st : State) : Result := writeResult d st.hi st

/-- `mflo $d` (R177). -/
def execMflo (d : Reg) (st : State) : Result := writeResult d st.lo st

end Sys2Proof.Machine
end

