-- ==== Sys2Proof/Machine/Cycle.lean ====
section
/-! DEFINITION. One step of the execution cycle (40_step_cycle.md, R150): the checks of the fetch in their order,
the fetch, the decoder and the dispatch. -/

namespace Sys2Proof.Machine

/-- Step 3: the current contents of the word at pc (R144, R83). -/
def fetchWord (s : State) : Word := s.memRead s.pc

/-- Steps 4 to 10 for a fetched word: its instruction runs, and the invalid-instruction handler of an unregistered
slot ends the step with `InvalidInstruction(A)`, pc at `A + 4` (R111, R146, R151). -/
def runWord (s : State) (w : Word) : Result :=
  match decode s.cfg.opcodes w with
  | .ok i => exec i s
  | .error _ => raise .invalidInstruction s.pc s.advance

/-- `step()` of R150: fetch alignment (R141), halt check (R142), fetch range (R143), then the fetched word. The
fetch's own faults leave the whole state unchanged (R151). -/
def cycle (s : State) : Result :=
  if aligned s.pc then
    if s.pc = s.cfg.haltAddr then raise .halted s.pc s
    else if s.inRange s.pc then runWord s (fetchWord s)
    else raise .outOfRangeInstructionFetch s.pc s
  else raise .unalignedInstructionFetch s.pc s

/-- A word stored at pc, where the next step fetches. -/
def storeAtPc (s : State) (w : Word) : State := s.memWrite s.pc w

end Sys2Proof.Machine
end

