-- ==== Sys2Proof/Machine/Step.lean ====
section
/-! DEFINITION. The step function (R140, R150). -/

namespace Sys2Proof.Machine

/-- One step: at most one instruction, atomically (R140). -/
def step : State → Host.Outcome State Fault Refusal := cycle

/-- The state with one instruction of the opcode table stored where `step` fetches, and nothing else changed: an
instruction is one 32-bit word (R100), numbered as R14 does. -/
def State.withFetchWord (s : State) (nbits w : Nat) : State := storeAtPc s (BitVec.ofNat 32 (w % 2 ^ nbits))

end Sys2Proof.Machine
end

