-- ==== Sys2Proof/Machine/Dump.lean ====
section
/-! DEFINITION. The bytes of the memory dump, one of the three boundaries at which byte order exists (R74). The program
that writes them is out of scope (R5); a dump reads memory and changes nothing. -/

namespace Sys2Proof.Machine

/-- The bytes of a 32-bit word in big-endian order: the most significant first (R74). -/
def wordBytes (w : Word) : List Byte :=
  [w.extractLsb' 24 8, w.extractLsb' 16 8, w.extractLsb' 8 8, w.extractLsb' 0 8]

/-- `n` words of a memory from word index `k` on, in address order, each big-endian (R74). -/
def dumpWords (m : Memory) : Nat → Nat → List Byte
  | _, 0 => []
  | k, n + 1 => wordBytes (m.readWord k) ++ dumpWords m (k + 1) n

/-- The memory dump of `n` words of the machine from word index `k` on. The spec does not say which words a dump
covers, so the range is an argument (log entry 17); all of `M` is `s.dump 0 s.cfg.memWords`. -/
def State.dump (s : State) (k n : Nat) : List Byte := dumpWords s.mem k n

end Sys2Proof.Machine
end

