-- ==== Sys2Proof/Machine/Loader.lean ====
section
/-! DEFINITION. Machine creation and the effect of loading an image on the initial state (70_reset_and_hazards.md,
R340 to R346). -/

namespace Sys2Proof.Machine

/-- `MEM_WORDS` of a requested capacity in bytes: 0 asks for the default; a capacity that is no multiple of 4 or
exceeds 2^32 is refused (R11, R341, D18). -/
def memWordsOf (bytes : Nat) : Except Refusal Nat :=
  if bytes = 0 then .ok Config.defaultMemWords
  else if bytes % 4 = 0 ∧ bytes ≤ 2 ^ 32 then .ok (bytes / 4)
  else .error (.illegalCapacity bytes)

/-- Creation with a requested capacity, the other parameters from `cfg` and the host's input bytes (R340, R47). -/
def create (bytes : Nat) (cfg : Config) (input : List Byte) : Except Refusal State :=
  match memWordsOf bytes with
  | .error r => .error r
  | .ok n =>
    let cfg := { cfg with memWords := n }
    if cfg.wf then .ok { State.reset with cfg := cfg, input := input } else .error .illegalParameter

/-- The words of a byte stream, four bytes each, the first byte the most significant (R342); `none` where the stream
is no whole number of words (D23). -/
def imageWords : List Byte → Option (List Word)
  | [] => some []
  | b0 :: b1 :: b2 :: b3 :: rest => (imageWords rest).map fun ws => (b0 ++ b1 ++ b2 ++ b3) :: ws
  | _ => none

/-- The words placed at consecutive word indices from `k` on (R342). -/
def placeWords : Memory → Nat → List Word → Memory
  | m, _, [] => m
  | m, k, w :: ws => placeWords (m.writeWord k w) (k + 1) ws

/-- Loading an image: its words at `LOAD_WORD`, `x[31] = HALT_ADDR`, `pc = 4 * LOAD_WORD` (R342 to R344); a load that
does not fit fails (R346). -/
def load (image : List Byte) (s : State) : Except Refusal State :=
  match imageWords image with
  | none => .error (.imageNotWords image.length)
  | some ws =>
    if s.cfg.loadWord + ws.length ≤ s.cfg.memWords then
      .ok (({ s with mem := placeWords s.mem s.cfg.loadWord ws }.writeReg 31#5 s.cfg.haltAddr).setPc
        (BitVec.ofNat 32 (4 * s.cfg.loadWord)))
    else .error (.imageTooLarge ws.length)

/-- The launch state: created, then loaded (R345). -/
def launch (bytes : Nat) (cfg : Config) (input image : List Byte) : Except Refusal State :=
  match create bytes cfg input with
  | .error r => .error r
  | .ok s => load image s

end Sys2Proof.Machine
end

