-- ==== Sys2Proof/Machine/Run.lean ====
section
/-! DEFINITION. The status of a step, a run of the machine and the step loop (R152 to R155, R300). -/

namespace Sys2Proof.Machine

/-- The numeric code of a status, the spec's own choice (R300, D21). -/
def Status.code : Status → Nat
  | .continuing _ => 0
  | .halted _ => 1
  | .unalignedInstructionFetch _ => 2
  | .outOfRangeInstructionFetch _ => 3
  | .unalignedMemoryAccess _ => 4
  | .outOfRangeMemoryAccess _ => 5
  | .invalidInstruction _ => 6

/-- The 32-bit value a status carries (R300). -/
def Status.payload : Status → Word
  | .continuing v => v
  | .halted v => v
  | .unalignedInstructionFetch v => v
  | .outOfRangeInstructionFetch v => v
  | .unalignedMemoryAccess v => v
  | .outOfRangeMemoryAccess v => v
  | .invalidInstruction v => v

/-- Every status but `Continuing` is terminal (R153, R300, R301). -/
def Status.terminal : Status → Bool
  | .continuing _ => false
  | .halted _ => true
  | .unalignedInstructionFetch _ => true
  | .outOfRangeInstructionFetch _ => true
  | .unalignedMemoryAccess _ => true
  | .outOfRangeMemoryAccess _ => true
  | .invalidInstruction _ => true

/-- The terminal status that a step which stops returns. -/
def Fault.status : Fault → Status
  | .halted v _ => .halted v
  | .unalignedInstructionFetch v _ => .unalignedInstructionFetch v
  | .outOfRangeInstructionFetch v _ => .outOfRangeInstructionFetch v
  | .unalignedMemoryAccess v _ => .unalignedMemoryAccess v
  | .outOfRangeMemoryAccess v _ => .outOfRangeMemoryAccess v
  | .invalidInstruction v _ => .invalidInstruction v

/-- The state in which a step that stops leaves the machine (R151, R154). -/
def Fault.final : Fault → State
  | .halted _ s => s
  | .unalignedInstructionFetch _ s => s
  | .outOfRangeInstructionFetch _ s => s
  | .unalignedMemoryAccess _ s => s
  | .outOfRangeMemoryAccess _ s => s
  | .invalidInstruction _ s => s

/-- A run about to fetch its first instruction (R155). -/
def Run.start (s : State) : Run := { state := s, status := .continuing s.pc }

/-- One `step()` of a run: the state it leaves and the status it returns. A run that has returned a terminal status
has no further step (R153, D17). -/
def Run.advance (r : Run) : Host.Outcome Run Fault Refusal :=
  if r.status.terminal then .refused (.steppedAfterTerminal r.status)
  else
    match step r.state with
    | .next s => .next { state := s, status := .continuing s.pc }
    | .fault f => .next { state := f.final, status := f.status }
    | .refused e => .refused e

/-- `step_loop()` under fuel: the first status that is not `Continuing`, with the final state, or `none` when the fuel
ends first (R152, R154). -/
def stepLoop : Nat → State → Option Run
  | 0, _ => none
  | n + 1, s =>
    match step s with
    | .next t => stepLoop n t
    | .fault f => some { state := f.final, status := f.status }
    | .refused _ => none

end Sys2Proof.Machine
end

