-- ==== Sys2Proof/Safety.lean ====
section
/-! DEFINITION. The terms that claims use: what an instruction leaves unchanged, the bits of a word an instruction
reads, when a step reaches its handler, and the invariant of a legal machine. -/

namespace Sys2Proof.Machine

/-! ### Frames -/

/-- Every register reads as before, and `x[0]` reads zero, as it does after every step that completes (R148). -/
def RegsKept (s t : State) : Prop := ∀ r : Reg, t.readReg r = if r = 0#5 then 0#32 else s.readReg r

/-- `x[d]` reads `v` and every other register as before; `x[0]` reads zero whatever `d` is (R32, R148). -/
def RegWritten (d : Reg) (v : Word) (s t : State) : Prop :=
  ∀ r : Reg, t.readReg r = if r = 0#5 then 0#32 else if r = d then v else s.readReg r

/-- `hi` and `lo` are unchanged. -/
def HiLoKept (s t : State) : Prop := t.hi = s.hi ∧ t.lo = s.lo

/-- Every byte of memory reads as before. -/
def MemKept (s t : State) : Prop := ∀ a : Nat, t.mem.readByte a = s.mem.readByte a

/-- Every byte of memory outside the four bytes of the word at `ba` reads as before. -/
def MemKeptOutside (ba : Word) (s t : State) : Prop :=
  ∀ a : Nat, a < ba.toNat ∨ ba.toNat + 4 ≤ a → t.mem.readByte a = s.mem.readByte a

/-- Both character channels are unchanged. -/
def IoKept (s t : State) : Prop := t.input = s.input ∧ t.output = s.output

/-- The configuration inputs are unchanged. -/
def CfgKept (s t : State) : Prop := t.cfg = s.cfg

/-- A result in a general register and nothing else, pc at `A + 4`. -/
def OnlyRegWritten (d : Reg) (v : Word) (s t : State) : Prop :=
  t.pc = s.pc + 4#32 ∧ RegWritten d v s t ∧ HiLoKept s t ∧ MemKept s t ∧ IoKept s t ∧ CfgKept s t

/-- A result in the pair `hi`, `lo` and nothing else, pc at `A + 4`. -/
def OnlyHiLoWritten (hi lo : Word) (s t : State) : Prop :=
  t.pc = s.pc + 4#32 ∧ t.hi = hi ∧ t.lo = lo ∧ RegsKept s t ∧ MemKept s t ∧ IoKept s t ∧ CfgKept s t

/-- pc at `a` and nothing else changed. -/
def OnlyPcWritten (a : Word) (s t : State) : Prop :=
  t.pc = a ∧ RegsKept s t ∧ HiLoKept s t ∧ MemKept s t ∧ IoKept s t ∧ CfgKept s t

/-! ### Encodings -/

/-- Every word that matches a row of the opcode table decodes to `f` of the word, under the default opcode map (R113;
the code values are the spec's decision D2, log entry 2). -/
def RowDecodes (mask pattern : Word) (f : Word → Instr) : Prop :=
  ∀ w : Word, w &&& mask = pattern → decode OpcodeMap.default w = .ok (f w)

/-- The mask and match of each row of spec/opcode_table.json, in the table's order (R113). -/
def tableRows : List (Word × Word) :=
  [(0xFC00003F#32, 0x00000020#32), (0xFC00003F#32, 0x00000022#32), (0xFC00003F#32, 0x00000018#32),
   (0xFC00003F#32, 0x00000019#32), (0xFC00003F#32, 0x0000001A#32), (0xFC00003F#32, 0x0000001B#32)] ++
  [(0xFC00003F#32, 0x00000010#32), (0xFC00003F#32, 0x00000012#32), (0xFC00003F#32, 0x00000014#32),
   (0xFC00003F#32, 0x0000002A#32), (0xFC00003F#32, 0x0000002B#32), (0xFC00003F#32, 0x00000008#32)] ++
  [(0xFC00003F#32, 0x00000009#32), (0xFC000000#32, 0x10000000#32), (0xFC000000#32, 0x14000000#32),
   (0xFC000000#32, 0x8C000000#32), (0xFC000000#32, 0xAC000000#32)]

/-- The bits of a word that an instruction depends on: all but the ignored fields of its row (R106, R113). -/
def careMask : Instr → Word
  | .add _ _ _ => 0xFFFFF83F#32
  | .sub _ _ _ => 0xFFFFF83F#32
  | .mult _ _ => 0xFFFF003F#32
  | .multu _ _ => 0xFFFF003F#32
  | .div _ _ => 0xFFFF003F#32
  | .divu _ _ => 0xFFFF003F#32
  | .mfhi _ => 0xFC00F83F#32
  | .mflo _ => 0xFC00F83F#32
  | .lis _ => 0xFC00F83F#32
  | .slt _ _ _ => 0xFFFFF83F#32
  | .sltu _ _ _ => 0xFFFFF83F#32
  | .jr _ => 0xFFE0003F#32
  | .jalr _ => 0xFFE0003F#32
  | .beq _ _ _ => 0xFFFFFFFF#32
  | .bne _ _ _ => 0xFFFFFFFF#32
  | .lw _ _ _ => 0xFFFFFFFF#32
  | .sw _ _ _ => 0xFFFFFFFF#32

/-! ### What an instruction writes -/

/-- The general register that an instruction writes, if any (R33, R34). -/
def writtenReg : Instr → Option Reg
  | .add d _ _ => some d
  | .sub d _ _ => some d
  | .mult _ _ => none
  | .multu _ _ => none
  | .div _ _ => none
  | .divu _ _ => none
  | .mfhi d => some d
  | .mflo d => some d
  | .lis d => some d
  | .slt d _ _ => some d
  | .sltu d _ _ => some d
  | .jr _ => none
  | .jalr _ => some 31#5
  | .beq _ _ _ => none
  | .bne _ _ _ => none
  | .lw _ t _ => some t
  | .sw _ _ _ => none

/-- The multiply and divide instructions, the only ones that write `hi` and `lo` (R40). -/
def isMulDiv : Instr → Bool
  | .mult _ _ => true
  | .multu _ _ => true
  | .div _ _ => true
  | .divu _ _ => true
  | _ => false

/-- The moves from HI and LO, the only instructions that read `hi` and `lo` (R40). -/
def isMoveFrom : Instr → Bool
  | .mfhi _ => true
  | .mflo _ => true
  | _ => false

/-- The register jumps, the only instructions that can set pc to a misaligned value (R38). -/
def isRegisterJump : Instr → Bool
  | .jr _ => true
  | .jalr _ => true
  | _ => false

/-- The instruction is a `lw` whose address is `MMIO_IN_ADDR`: it polls the input channel (R71). -/
def readsInput (i : Instr) (s : State) : Bool :=
  match i with
  | .lw b _ imm => s.readReg b + imm == s.cfg.mmioInAddr
  | _ => false

/-- The instruction is a `sw` whose address is `MMIO_OUT_ADDR` (R72). -/
def writesOutput (i : Instr) (s : State) : Bool :=
  match i with
  | .sw b _ imm => s.readReg b + imm == s.cfg.mmioOutAddr
  | _ => false

/-- The instruction is a `sw` to memory: at any other address. -/
def writesMemory (i : Instr) (s : State) : Bool :=
  match i with
  | .sw b _ imm => s.readReg b + imm != s.cfg.mmioOutAddr
  | _ => false

/-! ### Steps -/

/-- The three checks of the fetch pass, so the step reaches its handler (R68). -/
def fetchOk (s : State) : Bool :=
  s.pc.toNat % 4 == 0 && s.pc != s.cfg.haltAddr && decide (s.pc.toNat / 4 < s.cfg.memWords)

/-- The instruction that the next step runs: the fetch's checks pass and the word at pc decodes to it. -/
def Runs (s : State) (i : Instr) : Prop := fetchOk s = true ∧ decode s.cfg.opcodes (s.memRead s.pc) = .ok i

/-- The outcome with `f` applied to the state it leaves. -/
def mapState (f : State → State) : Result → Result
  | .next s => .next (f s)
  | .fault (.halted v s) => .fault (.halted v (f s))
  | .fault (.unalignedInstructionFetch v s) => .fault (.unalignedInstructionFetch v (f s))
  | .fault (.outOfRangeInstructionFetch v s) => .fault (.outOfRangeInstructionFetch v (f s))
  | .fault (.unalignedMemoryAccess v s) => .fault (.unalignedMemoryAccess v (f s))
  | .fault (.outOfRangeMemoryAccess v s) => .fault (.outOfRangeMemoryAccess v (f s))
  | .fault (.invalidInstruction v s) => .fault (.invalidInstruction v (f s))
  | .refused r => .refused r

/-- The state with another content of the input channel. -/
def State.withInput (s : State) (input : List Byte) : State := { s with input := input }

/-- The state with other values of `hi` and `lo`. -/
def State.withHiLo (s : State) (hi lo : Word) : State := { s with hi := hi, lo := lo }

/-- `n` steps, each of which continues, lead from `s` to `t`. -/
inductive Continues : Nat → State → State → Prop where
  | zero (s : State) : Continues 0 s s
  | succ (n : Nat) (s u t : State) (first : step s = .next u) (rest : Continues n u t) : Continues (n + 1) s t

/-! ### The invariant -/

/-- A legal machine: a legal configuration (R11, R12), `x[0]` zero (R32), memory in its canonical form, and no byte
listed outside storage (R44). -/
structure State.Inv (s : State) : Prop where
  cfg_wf  : s.cfg.wf = true
  zero    : s.readReg 0#5 = 0#32
  mem_wf  : s.mem.wf
  storage : ∀ c ∈ s.mem, c.1 < 4 * s.cfg.memWords

end Sys2Proof.Machine
end

