-- ==== Sys2Proof/Certificates/Slice0/Obligations.lean ====
section
/-! DEFINITION. The statements for the provers, from the numbered rules of the spec. -/

open Sys2Proof Sys2Proof.Machine

/-! ### Encoding -/

/-- R102, R103, R104: the two forms, which the top six bits decide, and the fields of each; the immediate is a
signed 16-bit value. -/
def Obligations.DescriptorFormsAndFields : Prop :=
  ∀ w : Word,
    (w.extractLsb' 26 6 = 0#6 ↔ ∃ d s t c, descriptor w = .registerForm d s t c) ∧
    (w.extractLsb' 26 6 ≠ 0#6 ↔ ∃ s t c imm, descriptor w = .immediateForm s t c imm) ∧
    (w.extractLsb' 26 6 = 0#6 → descriptor w =
      .registerForm (w.extractLsb' 11 5) (w.extractLsb' 21 5) (w.extractLsb' 16 5) (w.extractLsb' 0 6)) ∧
    (w.extractLsb' 26 6 ≠ 0#6 → descriptor w =
      .immediateForm (w.extractLsb' 21 5) (w.extractLsb' 16 5) (w.extractLsb' 26 6)
        ((w.extractLsb' 0 16).signExtend 32)) ∧
    (∀ s t c imm, descriptor w = .immediateForm s t c imm → -32768 ≤ imm.toInt ∧ imm.toInt ≤ 32767)

/-- R111: a word that matches no row of the opcode table ends the step with `InvalidInstruction(A)`, where `A`
is its address, and writes nothing but the pc advance of step 4; 51 slots of `RTAB` and 60 of `ITAB` are invalid, and
`ITAB[0]`, one of them, is never selected. -/
def Obligations.UnlistedEncodingIsInvalid : Prop :=
  (∀ s : State, s.cfg.opcodes = OpcodeMap.default → fetchOk s = true →
    (∀ row ∈ tableRows, s.memRead s.pc &&& row.1 ≠ row.2) →
    step s = .fault (.invalidInstruction s.pc { s with pc := s.pc + 4#32 })) ∧
  (List.range 64).countP (fun c => (rtab OpcodeMap.default (BitVec.ofNat 6 c)).isNone) = 51 ∧
  (List.range 64).countP (fun c => (itab OpcodeMap.default (BitVec.ofNat 6 c)).isNone) = 60 ∧
  itab OpcodeMap.default 0#6 = none ∧
  ∀ (w : Word) (s t : Reg) (imm : Word), descriptor w ≠ .immediateForm s t 0#6 imm

/-- Two words that differ only in the bits an instruction ignores are the same instruction, under every opcode map. The
spec's R106 says so and marks it derived, and its reading as its decision D19 (log entry 13). -/
def Obligations.IgnoredBitsDoNotMatter : Prop :=
  ∀ (m : OpcodeMap) (w w' : Word) (i : Instr),
    decode m w = .ok i → (w' ^^^ w) &&& careMask i = 0#32 → decode m w' = .ok i

/-- Decode and encode agree: every well-formed instruction is what its encoded word decodes to, under every
well-formed opcode map. The encoder's zeros in the ignored fields and the well-formedness of a map are the model's
choice (log entries 13 and 15). -/
def Obligations.EncodedInstructionDecodesBack : Prop :=
  ∀ (m : OpcodeMap) (i : Instr), m.wf = true → i.wf = true → decode m (encode m i) = .ok i

/-- What a word decodes to is well-formed, and encoding it gives the word back with its ignored bits cleared. That the
encoder writes zeros in the ignored fields, and which immediates are well-formed, are the model's choice (log
entry 13). -/
def Obligations.DecodedWordEncodesBack : Prop :=
  ∀ (m : OpcodeMap) (w : Word) (i : Instr),
    decode m w = .ok i → i.wf = true ∧ encode m i = w &&& careMask i

/-- A word of each family, written out from R101 and R113, decodes to the instruction it stands for. -/
def Obligations.WrittenOutWordsDecode : Prop :=
  decodeTableWord 32 0b000000_00010_00011_00001_00000_100000 = some (.add 1#5 2#5 3#5) ∧
  decodeTableWord 32 0b000000_00010_00011_00001_11111_100000 = some (.add 1#5 2#5 3#5) ∧
  decodeTableWord 32 0b000000_00110_00111_00000_00000_011010 = some (.div 6#5 7#5) ∧
  decodeTableWord 32 0b000000_00000_00000_01000_00000_010000 = some (.mfhi 8#5) ∧
  decodeTableWord 32 0b000000_11111_00000_00000_00000_001000 = some (.jr 31#5) ∧
  decodeTableWord 32 0b000100_00001_00010_1111111111111101 = some (.beq 1#5 2#5 (-3#32)) ∧
  decodeTableWord 32 0b100011_10010_10001_1111111111101000 = some (.lw 18#5 17#5 (-24#32)) ∧
  decodeTableWord 32 0b101011_11101_00010_0000000000001000 = some (.sw 29#5 2#5 8#32) ∧
  decodeTableWord 32 0 = none

/-! ### Creation, reset and loading -/

/-- Creation answers exactly for a legal capacity, where 0 asks for the default, and legal parameters (the spec's R11
and R12). R11 refuses every other capacity; that illegal parameters are refused is the model's choice (log entry 14),
and which opcode maps are legal the model infers (log entry 15). Where it answers, everything is zero (R340), the
capacity is the one requested and no step changes it (R341), and the channels are the host's input and an empty output
(R47). -/
def Obligations.CreationZeroesEverything : Prop :=
  (∀ (bytes : Nat) (cfg : Config) (input : List Byte),
    (∃ s, create bytes cfg input = .ok s) ↔
      (bytes = 0 ∨ (bytes % 4 = 0 ∧ bytes ≤ 4294967296)) ∧
      cfg.haltAddr.toNat % 4 = 0 ∧ cfg.mmioOutAddr ≠ cfg.mmioInAddr ∧ cfg.opcodes.wf = true) ∧
  (∀ (bytes : Nat) (cfg : Config) (input : List Byte) (s : State), create bytes cfg input = .ok s →
    s.cfg = { cfg with memWords := if bytes = 0 then 4194304 else bytes / 4 } ∧
    (∀ r : Reg, s.readReg r = 0#32) ∧ s.pc = 0#32 ∧ s.hi = 0#32 ∧ s.lo = 0#32 ∧
    (∀ k : Nat, s.mem.readWord k = 0#32) ∧ s.input = input ∧ s.output = []) ∧
  (∀ s t : State, step s = .next t → t.cfg.memWords = s.cfg.memWords) ∧
  ∀ (s : State) (f : Fault), step s = .fault f → f.final.cfg.memWords = s.cfg.memWords

/-- R11: a capacity that is no multiple of 4 bytes or that exceeds 2^32 bytes is a refused configuration. -/
def Obligations.IllegalCapacityRefused : Prop :=
  ∀ (bytes : Nat) (cfg : Config) (input : List Byte),
    (bytes % 4 ≠ 0 ∨ 4294967296 < bytes) → create bytes cfg input = .error (.illegalCapacity bytes)

/-- The other refusals of creation, for a legal capacity: `HALT_ADDR` no multiple of 4 and equal MMIO addresses (the
spec's R12), and an illegal opcode map: two operations of one table at one code, or an operation at opcode 0. That
these are refused by this name is the model's choice (log entry 14), and which maps are legal it infers from R110,
R112 and R114 (log entry 15). -/
def Obligations.IllegalParameterRefused : Prop :=
  ∀ (bytes : Nat) (cfg : Config) (input : List Byte),
    (bytes = 0 ∨ (bytes % 4 = 0 ∧ bytes ≤ 4294967296)) →
    (cfg.haltAddr.toNat % 4 ≠ 0 ∨ cfg.mmioOutAddr = cfg.mmioInAddr ∨
      (∃ a b : ROp, a ≠ b ∧ cfg.opcodes.funct a = cfg.opcodes.funct b) ∨
      (∃ a b : IOp, a ≠ b ∧ cfg.opcodes.opcode a = cfg.opcodes.opcode b) ∨
      ∃ a : IOp, cfg.opcodes.opcode a = 0#6) →
    create bytes cfg input = .error .illegalParameter

/-- R12: the default of every parameter; the default configuration is legal; and `State.reset` is creation with the
default capacity and parameters. That its input channel is empty is the model's own choice (log entry 6). -/
def Obligations.ResetIsCreationWithDefaults : Prop :=
  Config.default.memWords = 4194304 ∧ Config.default.haltAddr = 0x8123456C#32 ∧
  Config.default.mmioOutAddr = 0xFFFF000C#32 ∧ Config.default.mmioInAddr = 0xFFFF0004#32 ∧
  Config.default.loadWord = 0 ∧ Config.default.opcodes = OpcodeMap.default ∧ Config.default.wf = true ∧
  create 0 Config.default [] = .ok State.reset

/-- R342 to R345: the launch state. The image's bytes are its words, most significant byte first, at `LOAD_WORD`; every
other word stays zero; `x[31]` is `HALT_ADDR` and every other register zero; `pc` is `4 * LOAD_WORD`. An image that is
no whole number of words is refused. -/
def Obligations.LaunchState : Prop :=
  ∀ (bytes : Nat) (cfg : Config) (input image : List Byte) (s : State) (n : Nat),
    create bytes cfg input = .ok s →
    (image.length = 4 * n → s.cfg.loadWord + n ≤ s.cfg.memWords →
      ∃ t, launch bytes cfg input image = .ok t ∧
        t.cfg = s.cfg ∧ t.readReg 31#5 = s.cfg.haltAddr ∧ (∀ r : Reg, r ≠ 31#5 → t.readReg r = 0#32) ∧
        t.pc = BitVec.ofNat 32 (4 * s.cfg.loadWord) ∧ t.hi = 0#32 ∧ t.lo = 0#32 ∧
        (∀ k, k < n → t.mem.readWord (s.cfg.loadWord + k) =
          image.getD (4 * k) 0#8 ++ image.getD (4 * k + 1) 0#8 ++ image.getD (4 * k + 2) 0#8 ++
            image.getD (4 * k + 3) 0#8) ∧
        (∀ j, j < s.cfg.loadWord ∨ s.cfg.loadWord + n ≤ j → t.mem.readWord j = 0#32) ∧
        t.input = input ∧ t.output = []) ∧
    (image.length % 4 ≠ 0 → launch bytes cfg input image = .error (.imageNotWords image.length))

/-- R346: an image that does not fit is not loaded, and no machine exists. -/
def Obligations.TooLargeImageFails : Prop :=
  ∀ (bytes : Nat) (cfg : Config) (input image : List Byte) (s : State) (n : Nat),
    create bytes cfg input = .ok s → image.length = 4 * n → s.cfg.memWords < s.cfg.loadWord + n →
    launch bytes cfg input image = .error (.imageTooLarge n)

/-- The memory dump is the words of memory in address order, each most significant byte first; and dumping the words
where an image was loaded gives the image back, byte for byte. That a dump's range is an argument is the model's choice
(log entry 17). -/
def Obligations.DumpIsBigEndianAndReturnsImage : Prop :=
  (∀ (s : State) (k n : Nat),
    (s.dump k n).length = 4 * n ∧
    ∀ j, j < n →
      (s.dump k n).getD (4 * j) 0#8 = (s.mem.readWord (k + j)).extractLsb' 24 8 ∧
      (s.dump k n).getD (4 * j + 1) 0#8 = (s.mem.readWord (k + j)).extractLsb' 16 8 ∧
      (s.dump k n).getD (4 * j + 2) 0#8 = (s.mem.readWord (k + j)).extractLsb' 8 8 ∧
      (s.dump k n).getD (4 * j + 3) 0#8 = (s.mem.readWord (k + j)).extractLsb' 0 8) ∧
  ∀ (bytes : Nat) (cfg : Config) (input image : List Byte) (s : State) (n : Nat),
    image.length = 4 * n → launch bytes cfg input image = .ok s → s.dump s.cfg.loadWord n = image

/-- The reset state is a legal machine. -/
def Obligations.ResetIsLegal : Prop := State.reset.Inv

/-- Every launched machine is a legal machine. -/
def Obligations.LaunchedMachineIsLegal : Prop :=
  ∀ (bytes : Nat) (cfg : Config) (input image : List Byte) (s : State),
    launch bytes cfg input image = .ok s → s.Inv

/-! ### The cycle -/

/-- R141, R142, R143: the three stops of the fetch, exactly when each is returned, in their order; the whole state is
left as it was. -/
def Obligations.FetchStopsExactly : Prop :=
  ∀ (s final : State) (v : Word),
    (step s = .fault (.unalignedInstructionFetch v final) ↔ s.pc.toNat % 4 ≠ 0 ∧ v = s.pc ∧ final = s) ∧
    (step s = .fault (.halted v final) ↔
      s.pc.toNat % 4 = 0 ∧ s.pc = s.cfg.haltAddr ∧ v = s.pc ∧ final = s) ∧
    (step s = .fault (.outOfRangeInstructionFetch v final) ↔
      s.pc.toNat % 4 = 0 ∧ s.pc ≠ s.cfg.haltAddr ∧ s.cfg.memWords ≤ s.pc.toNat / 4 ∧ v = s.pc ∧ final = s)

/-- R150: when the fetch's checks pass, a step is the meaning of the instruction that the word at pc decodes to, from
the same state (each meaning advances pc itself); a word that is no instruction ends the step with
`InvalidInstruction(A)`, pc at `A + 4`. -/
def Obligations.StepRunsDecodedInstruction : Prop :=
  ∀ s : State, fetchOk s = true →
    (∀ i, decode s.cfg.opcodes (s.memRead s.pc) = .ok i → step s = exec i s) ∧
    (∀ e, decode s.cfg.opcodes (s.memRead s.pc) = .error e →
      step s = .fault (.invalidInstruction s.pc { s with pc := s.pc + 4#32 }))

/-- R307: the three cases in which a step returns `InvalidInstruction`, its payload and what it leaves. -/
def Obligations.InvalidInstructionExactly : Prop :=
  ∀ (s final : State) (v : Word),
    step s = .fault (.invalidInstruction v final) ↔
      fetchOk s = true ∧ v = s.pc ∧ final = { s with pc := s.pc + 4#32 } ∧
      ((∃ e, decode s.cfg.opcodes (s.memRead s.pc) = .error e) ∨
       (∃ a b, (decode s.cfg.opcodes (s.memRead s.pc) = .ok (.div a b) ∨
          decode s.cfg.opcodes (s.memRead s.pc) = .ok (.divu a b)) ∧ s.readReg b = 0#32) ∨
       (∃ a b, decode s.cfg.opcodes (s.memRead s.pc) = .ok (.div a b) ∧
          s.readReg a = 0x80000000#32 ∧ s.readReg b = 0xFFFFFFFF#32))

/-- R305, R306: exactly when a step returns each of the two memory faults, its payload and what it leaves. -/
def Obligations.MemoryFaultsExactly : Prop :=
  ∀ (s final : State) (v : Word),
    (step s = .fault (.unalignedMemoryAccess v final) ↔
      fetchOk s = true ∧ final = { s with pc := s.pc + 4#32 } ∧
      v.toNat / 4 < s.cfg.memWords ∧ v.toNat % 4 ≠ 0 ∧
      ∃ b r imm, v = effectiveAddress s b imm ∧
        ((decode s.cfg.opcodes (s.memRead s.pc) = .ok (.lw b r imm) ∧ v ≠ s.cfg.mmioInAddr) ∨
         (decode s.cfg.opcodes (s.memRead s.pc) = .ok (.sw b r imm) ∧ v ≠ s.cfg.mmioOutAddr))) ∧
    (step s = .fault (.outOfRangeMemoryAccess v final) ↔
      fetchOk s = true ∧ final = { s with pc := s.pc + 4#32 } ∧ s.cfg.memWords ≤ v.toNat / 4 ∧
      ((∃ b r imm, v = effectiveAddress s b imm ∧
        ((decode s.cfg.opcodes (s.memRead s.pc) = .ok (.lw b r imm) ∧ v ≠ s.cfg.mmioInAddr) ∨
         (decode s.cfg.opcodes (s.memRead s.pc) = .ok (.sw b r imm) ∧ v ≠ s.cfg.mmioOutAddr))) ∨
       (∃ d, decode s.cfg.opcodes (s.memRead s.pc) = .ok (.lis d) ∧ v = s.pc + 4#32)))

/-- R151: a stop of the fetch leaves the whole state as it was; a stop of a handler leaves all of it but pc, which is
`A + 4`. -/
def Obligations.FaultsArePrecise : Prop :=
  ∀ (s : State) (f : Fault), step s = .fault f →
    (fetchOk s = false ∧ f.final = s) ∨ (fetchOk s = true ∧ f.final = { s with pc := s.pc + 4#32 })

/-- No instruction and no step of any state is refused: each completes or returns a terminal status. -/
def Obligations.NothingIsRefused : Prop :=
  (∀ (i : Instr) (s : State) (r : Refusal), exec i s ≠ .refused r) ∧
  ∀ (s : State) (r : Refusal), step s ≠ .refused r

/-- R148: `x[0]` is zero after every step that completes, from every state; a step that stops does not write it. -/
def Obligations.RegisterZeroCommit : Prop :=
  (∀ s t : State, step s = .next t → t.readReg 0#5 = 0#32) ∧
  ∀ (s : State) (f : Fault), step s = .fault f → f.final.readReg 0#5 = s.readReg 0#5

/-- The configuration inputs, the memory's capacity among them, are constant for a run. -/
def Obligations.ConfigurationIsConstant : Prop :=
  (∀ s t : State, step s = .next t → t.cfg = s.cfg) ∧
  ∀ (s : State) (f : Fault), step s = .fault f → f.final.cfg = s.cfg

/-- Every step keeps a legal machine legal: its configuration, `x[0]`, the canonical form of memory, and that no byte
is listed outside storage. -/
def Obligations.StepKeepsMachineLegal : Prop :=
  (∀ s t : State, s.Inv → step s = .next t → t.Inv) ∧
  ∀ (s : State) (f : Fault), s.Inv → step s = .fault f → f.final.Inv

/-- The spec's R38, which it marks derived: every instruction but `jr` and `jalr` keeps an aligned pc aligned; those
two set pc to any value of their register; and a misaligned pc is reported by the next step, which changes nothing. -/
def Obligations.AlignmentOfPc : Prop :=
  (∀ (s t : State) (i : Instr), s.pc.toNat % 4 = 0 → isRegisterJump i = false → exec i s = .next t →
    t.pc.toNat % 4 = 0) ∧
  (∀ (s : State) (a : Reg), ∃ t, exec (.jr a) s = .next t ∧ t.pc = s.readReg a) ∧
  (∀ (s : State) (a : Reg), ∃ t, exec (.jalr a) s = .next t ∧ t.pc = s.readReg a) ∧
  (∀ s : State, s.pc.toNat % 4 ≠ 0 → step s = .fault (.unalignedInstructionFetch s.pc s))

/-! ### Who reads and writes what -/

/-- No instruction changes a general register that its operands do not name as written; `jalr` alone writes `x[31]`
without naming it (R33, R34). -/
def Obligations.OnlyNamedRegisterWritten : Prop :=
  ∀ (i : Instr) (s t : State) (r : Reg), exec i s = .next t → r ≠ 0#5 → writtenReg i ≠ some r →
    t.readReg r = s.readReg r

/-- Only a multiply or divide changes `hi` and `lo`, and only `mfhi` and `mflo` depend on them: with other values in
`hi` and `lo`, a multiply or divide that completes reaches the very same state, and every other instruction does the
same and keeps the other values (R40). -/
def Obligations.HiLoWrittenAndReadOnlyByTheirOwn : Prop :=
  (∀ (i : Instr) (s t : State), isMulDiv i = false → exec i s = .next t → t.hi = s.hi ∧ t.lo = s.lo) ∧
  (∀ (i : Instr) (s : State) (h l : Word), isMulDiv i = false → isMoveFrom i = false →
    exec i (s.withHiLo h l) = mapState (fun u => u.withHiLo h l) (exec i s)) ∧
  (∀ (i : Instr) (s t : State) (h l : Word), isMulDiv i = true → exec i s = .next t →
    exec i (s.withHiLo h l) = .next t)

/-- Only a `sw` to memory changes a byte of memory, only a `sw` to `MMIO_OUT_ADDR` changes the output channel, and only
a `lw` from `MMIO_IN_ADDR` the input channel. -/
def Obligations.MemoryAndChannelsChangedOnlyByTheirOwn : Prop :=
  ∀ (i : Instr) (s t : State), exec i s = .next t →
    (writesMemory i s = false → t.mem = s.mem) ∧
    (writesOutput i s = false → t.output = s.output) ∧
    (readsInput i s = false → t.input = s.input)

/-- The input channel is the only way in: unless the next step polls it, a step does the same whatever the channel
holds, and leaves it as it is (R156, R314). -/
def Obligations.InputSeenOnlyByPolling : Prop :=
  ∀ (s : State) (input : List Byte), (∀ i, Runs s i → readsInput i s = false) →
    step (s.withInput input) = mapState (fun u => u.withInput input) (step s)

/-! ### ALU instructions -/

/-- R170, R171: the encodings, and the sum and difference modulo 2^32, with no trap; nothing else changes. -/
def Obligations.AddAndSubWrap : Prop :=
  RowDecodes 0xFC00003F#32 0x00000020#32
    (fun w => .add (w.extractLsb' 11 5) (w.extractLsb' 21 5) (w.extractLsb' 16 5)) ∧
  RowDecodes 0xFC00003F#32 0x00000022#32
    (fun w => .sub (w.extractLsb' 11 5) (w.extractLsb' 21 5) (w.extractLsb' 16 5)) ∧
  ∀ (s : State) (d a b : Reg),
    (∃ t, exec (.add d a b) s = .next t ∧
      OnlyRegWritten d (BitVec.ofNat 32 ((s.readReg a).toNat + (s.readReg b).toNat)) s t) ∧
    (∃ t, exec (.sub d a b) s = .next t ∧
      OnlyRegWritten d (BitVec.ofInt 32 ((s.readReg a).toInt - (s.readReg b).toInt)) s t)

/-- R172, R173: the encodings, and the exact signed and unsigned product modulo 2^64 in the pair `hi`, `lo`; nothing
else changes. -/
def Obligations.MultiplyIntoHiLo : Prop :=
  RowDecodes 0xFC00003F#32 0x00000018#32 (fun w => .mult (w.extractLsb' 21 5) (w.extractLsb' 16 5)) ∧
  RowDecodes 0xFC00003F#32 0x00000019#32 (fun w => .multu (w.extractLsb' 21 5) (w.extractLsb' 16 5)) ∧
  ∀ (s : State) (a b : Reg),
    (∃ t, exec (.mult a b) s = .next t ∧
      OnlyHiLoWritten
        ((BitVec.ofInt 64 ((s.readReg a).toInt * (s.readReg b).toInt)).extractLsb' 32 32)
        ((BitVec.ofInt 64 ((s.readReg a).toInt * (s.readReg b).toInt)).extractLsb' 0 32) s t) ∧
    (∃ t, exec (.multu a b) s = .next t ∧
      OnlyHiLoWritten
        ((BitVec.ofNat 64 ((s.readReg a).toNat * (s.readReg b).toNat)).extractLsb' 32 32)
        ((BitVec.ofNat 64 ((s.readReg a).toNat * (s.readReg b).toNat)).extractLsb' 0 32) s t)

/-- The product of a multiply loses nothing: `hi` and `lo` together, read as a signed or an unsigned 64-bit value, are
the exact product (R172, R173, R180). -/
def Obligations.ProductsAreExact : Prop :=
  ∀ (s t : State) (a b : Reg),
    (exec (.mult a b) s = .next t → (t.hi ++ t.lo).toInt = (s.readReg a).toInt * (s.readReg b).toInt) ∧
    (exec (.multu a b) s = .next t → (t.hi ++ t.lo).toNat = (s.readReg a).toNat * (s.readReg b).toNat)

/-- R174, R182, R183: the encoding; a zero divisor and signed overflow end the step with `InvalidInstruction(A)`, with
nothing written and pc at `A + 4`; otherwise the quotient truncated toward zero in `lo` and the remainder in `hi`, and
nothing else changes. (R182 speaks of `divu` too, which DivideUnsigned states.) -/
def Obligations.DivideSigned : Prop :=
  RowDecodes 0xFC00003F#32 0x0000001A#32 (fun w => .div (w.extractLsb' 21 5) (w.extractLsb' 16 5)) ∧
  ∀ (s : State) (a b : Reg),
    (s.readReg b = 0#32 →
      exec (.div a b) s = .fault (.invalidInstruction s.pc { s with pc := s.pc + 4#32 })) ∧
    (s.readReg a = 0x80000000#32 → s.readReg b = 0xFFFFFFFF#32 →
      exec (.div a b) s = .fault (.invalidInstruction s.pc { s with pc := s.pc + 4#32 })) ∧
    (s.readReg b ≠ 0#32 → ¬ (s.readReg a = 0x80000000#32 ∧ s.readReg b = 0xFFFFFFFF#32) →
      ∃ t, exec (.div a b) s = .next t ∧
        OnlyHiLoWritten
          (BitVec.ofInt 32 ((s.readReg a).toInt -
            (s.readReg a).toInt.tdiv (s.readReg b).toInt * (s.readReg b).toInt))
          (BitVec.ofInt 32 ((s.readReg a).toInt.tdiv (s.readReg b).toInt)) s t)

/-- R175: the encoding; a zero divisor ends the step with `InvalidInstruction(A)`, with nothing written and pc at
`A + 4`; otherwise the quotient in `lo` and the remainder in `hi`, and nothing else changes. -/
def Obligations.DivideUnsigned : Prop :=
  RowDecodes 0xFC00003F#32 0x0000001B#32 (fun w => .divu (w.extractLsb' 21 5) (w.extractLsb' 16 5)) ∧
  ∀ (s : State) (a b : Reg),
    (s.readReg b = 0#32 →
      exec (.divu a b) s = .fault (.invalidInstruction s.pc { s with pc := s.pc + 4#32 })) ∧
    (s.readReg b ≠ 0#32 →
      ∃ t, exec (.divu a b) s = .next t ∧
        OnlyHiLoWritten (BitVec.ofNat 32 ((s.readReg a).toNat % (s.readReg b).toNat))
          (BitVec.ofNat 32 ((s.readReg a).toNat / (s.readReg b).toNat)) s t)

/-- R181, the spec's decision D12 from general knowledge (log entry 10): the law of signed division. Where `div` does
not stop, the dividend is quotient times divisor plus remainder, the remainder is smaller in magnitude than the
divisor and has the dividend's sign; else the step ends with `InvalidInstruction(A)`. -/
def Obligations.SignedDivisionLaw : Prop :=
  ∀ (s : State) (a b : Reg),
    if s.readReg b = 0#32 ∨ (s.readReg a = 0x80000000#32 ∧ s.readReg b = 0xFFFFFFFF#32) then
      exec (.div a b) s = .fault (.invalidInstruction s.pc { s with pc := s.pc + 4#32 })
    else
      ∃ t, exec (.div a b) s = .next t ∧
        (s.readReg a).toInt = t.lo.toInt * (s.readReg b).toInt + t.hi.toInt ∧
        t.hi.toInt.natAbs < (s.readReg b).toInt.natAbs ∧
        (0 < t.hi.toInt → 0 < (s.readReg a).toInt) ∧ (t.hi.toInt < 0 → (s.readReg a).toInt < 0) ∧
        t.lo.toInt.natAbs = (s.readReg a).toInt.natAbs / (s.readReg b).toInt.natAbs

/-- R176, R177: the encodings, and `hi` or `lo` copied to the destination; nothing else changes. -/
def Obligations.MoveFromHiAndLo : Prop :=
  RowDecodes 0xFC00003F#32 0x00000010#32 (fun w => .mfhi (w.extractLsb' 11 5)) ∧
  RowDecodes 0xFC00003F#32 0x00000012#32 (fun w => .mflo (w.extractLsb' 11 5)) ∧
  ∀ (s : State) (d : Reg),
    (∃ t, exec (.mfhi d) s = .next t ∧ OnlyRegWritten d s.hi s t) ∧
    (∃ t, exec (.mflo d) s = .next t ∧ OnlyRegWritten d s.lo s t)

/-- R178, R179: the encodings, and 1 or 0 in the destination by the signed and by the unsigned comparison; nothing else
changes. -/
def Obligations.SetOnLessThan : Prop :=
  RowDecodes 0xFC00003F#32 0x0000002A#32
    (fun w => .slt (w.extractLsb' 11 5) (w.extractLsb' 21 5) (w.extractLsb' 16 5)) ∧
  RowDecodes 0xFC00003F#32 0x0000002B#32
    (fun w => .sltu (w.extractLsb' 11 5) (w.extractLsb' 21 5) (w.extractLsb' 16 5)) ∧
  ∀ (s : State) (d a b : Reg),
    (∃ t, exec (.slt d a b) s = .next t ∧
      OnlyRegWritten d (if (s.readReg a).toInt < (s.readReg b).toInt then 1#32 else 0#32) s t) ∧
    (∃ t, exec (.sltu d a b) s = .next t ∧
      OnlyRegWritten d (if (s.readReg a).toNat < (s.readReg b).toNat then 1#32 else 0#32) s t)

/-! ### Branches and jumps -/

/-- R220: the encoding; pc becomes the register and nothing else changes; the target is checked by the next step
alone. -/
def Obligations.JumpRegister : Prop :=
  RowDecodes 0xFC00003F#32 0x00000008#32 (fun w => .jr (w.extractLsb' 21 5)) ∧
  ∀ (s : State) (a : Reg), ∃ t, exec (.jr a) s = .next t ∧ OnlyPcWritten (s.readReg a) s t ∧
    ((s.readReg a).toNat % 4 ≠ 0 → step t = .fault (.unalignedInstructionFetch (s.readReg a) t)) ∧
    ((s.readReg a).toNat % 4 = 0 → s.readReg a = s.cfg.haltAddr →
      step t = .fault (.halted (s.readReg a) t)) ∧
    ((s.readReg a).toNat % 4 = 0 → s.readReg a ≠ s.cfg.haltAddr →
      s.cfg.memWords ≤ (s.readReg a).toNat / 4 →
      step t = .fault (.outOfRangeInstructionFetch (s.readReg a) t))

/-- R221: the encoding; the source register is read, then `x[31]` becomes `A + 4`, then pc the value read; nothing else
changes. -/
def Obligations.JumpAndLinkRegister : Prop :=
  RowDecodes 0xFC00003F#32 0x00000009#32 (fun w => .jalr (w.extractLsb' 21 5)) ∧
  ∀ (s : State) (a : Reg), ∃ t, exec (.jalr a) s = .next t ∧
    t.pc = s.readReg a ∧ RegWritten 31#5 (s.pc + 4#32) s t ∧ HiLoKept s t ∧ MemKept s t ∧ IoKept s t ∧ CfgKept s t

/-- R222, R223, R224: the encodings; pc becomes `(A + 4) + 4 * sext_32(imm)` when the condition holds and `A + 4` when
it does not, and nothing else changes; the encoded offsets are exactly the multiples of 4 in -131072..131068. -/
def Obligations.ConditionalBranches : Prop :=
  RowDecodes 0xFC000000#32 0x10000000#32
    (fun w => .beq (w.extractLsb' 21 5) (w.extractLsb' 16 5) ((w.extractLsb' 0 16).signExtend 32)) ∧
  RowDecodes 0xFC000000#32 0x14000000#32
    (fun w => .bne (w.extractLsb' 21 5) (w.extractLsb' 16 5) ((w.extractLsb' 0 16).signExtend 32)) ∧
  (∀ (s : State) (a b : Reg) (imm : Word),
    (∃ t, exec (.beq a b imm) s = .next t ∧
      OnlyPcWritten (if s.readReg a = s.readReg b then s.pc + 4#32 + 4#32 * imm else s.pc + 4#32) s t) ∧
    (∃ t, exec (.bne a b imm) s = .next t ∧
      OnlyPcWritten (if s.readReg a = s.readReg b then s.pc + 4#32 else s.pc + 4#32 + 4#32 * imm) s t)) ∧
  (∀ (v : BitVec 16), ∃ k : Int, -131072 ≤ k ∧ k ≤ 131068 ∧ k % 4 = 0 ∧
    4#32 * v.signExtend 32 = BitVec.ofInt 32 k) ∧
  (∀ k : Int, -131072 ≤ k → k ≤ 131068 → k % 4 = 0 →
    ∃ v : BitVec 16, 4#32 * v.signExtend 32 = BitVec.ofInt 32 k)

/-! ### Loads and stores -/

/-- R250, R69: the encoding; the word after the instruction in the destination, pc at `A + 8`, nothing else changed,
and neither a halt check nor an MMIO intercept of that word; beyond storage, `OutOfRangeMemoryAccess(A + 4)` with
nothing written and pc at `A + 4`. -/
def Obligations.LoadImmediateSuccessor : Prop :=
  RowDecodes 0xFC00003F#32 0x00000014#32 (fun w => .lis (w.extractLsb' 11 5)) ∧
  ∀ (s : State) (d : Reg),
    ((s.pc + 4#32).toNat / 4 < s.cfg.memWords →
      ∃ t, exec (.lis d) s = .next t ∧ t.pc = s.pc + 8#32 ∧ RegWritten d (s.memRead (s.pc + 4#32)) s t ∧
        HiLoKept s t ∧ MemKept s t ∧ IoKept s t ∧ CfgKept s t) ∧
    (s.cfg.memWords ≤ (s.pc + 4#32).toNat / 4 →
      exec (.lis d) s = .fault (.outOfRangeMemoryAccess (s.pc + 4#32) { s with pc := s.pc + 4#32 }))

/-- R251: the encoding; the effective address; at `MMIO_IN_ADDR` one input byte, zero-extended, or nothing when there
is none; then the range check, the alignment check, and the word in the destination. Nothing else changes, and a fault
leaves all but pc, which is `A + 4`. -/
def Obligations.LoadWord : Prop :=
  RowDecodes 0xFC000000#32 0x8C000000#32
    (fun w => .lw (w.extractLsb' 21 5) (w.extractLsb' 16 5) ((w.extractLsb' 0 16).signExtend 32)) ∧
  ∀ (s : State) (b r : Reg) (imm ba : Word), effectiveAddress s b imm = ba →
    ba = s.readReg b + imm ∧
    (ba = s.cfg.mmioInAddr → ∀ c rest, s.input = c :: rest →
      ∃ t, exec (.lw b r imm) s = .next t ∧ t.pc = s.pc + 4#32 ∧
        RegWritten r (BitVec.ofNat 32 c.toNat) s t ∧ t.input = rest ∧ t.output = s.output ∧
        HiLoKept s t ∧ MemKept s t ∧ CfgKept s t) ∧
    (ba = s.cfg.mmioInAddr → s.input = [] →
      ∃ t, exec (.lw b r imm) s = .next t ∧ OnlyPcWritten (s.pc + 4#32) s t) ∧
    (ba ≠ s.cfg.mmioInAddr → s.cfg.memWords ≤ ba.toNat / 4 →
      exec (.lw b r imm) s = .fault (.outOfRangeMemoryAccess ba { s with pc := s.pc + 4#32 })) ∧
    (ba ≠ s.cfg.mmioInAddr → ba.toNat / 4 < s.cfg.memWords → ba.toNat % 4 ≠ 0 →
      exec (.lw b r imm) s = .fault (.unalignedMemoryAccess ba { s with pc := s.pc + 4#32 })) ∧
    (ba ≠ s.cfg.mmioInAddr → ba.toNat / 4 < s.cfg.memWords → ba.toNat % 4 = 0 →
      ∃ t, exec (.lw b r imm) s = .next t ∧ OnlyRegWritten r (s.mem.readWord (ba.toNat / 4)) s t)

/-- R252: the encoding; the effective address; at `MMIO_OUT_ADDR` the low byte of the register to the output channel,
and memory unchanged; then the range check, the alignment check, and the register stored in the word at the address,
every byte outside it unchanged. Nothing else changes, and a fault leaves all but pc, which is `A + 4`. Memory is in
its canonical form, which every step keeps (StepKeepsMachineLegal). -/
def Obligations.StoreWord : Prop :=
  RowDecodes 0xFC000000#32 0xAC000000#32
    (fun w => .sw (w.extractLsb' 21 5) (w.extractLsb' 16 5) ((w.extractLsb' 0 16).signExtend 32)) ∧
  ∀ (s : State) (b r : Reg) (imm ba : Word), s.mem.wf → effectiveAddress s b imm = ba →
    ba = s.readReg b + imm ∧
    (ba = s.cfg.mmioOutAddr →
      ∃ t, exec (.sw b r imm) s = .next t ∧ t.pc = s.pc + 4#32 ∧
        t.output = s.output ++ [BitVec.ofNat 8 (s.readReg r).toNat] ∧ t.input = s.input ∧
        RegsKept s t ∧ HiLoKept s t ∧ MemKept s t ∧ CfgKept s t) ∧
    (ba ≠ s.cfg.mmioOutAddr → s.cfg.memWords ≤ ba.toNat / 4 →
      exec (.sw b r imm) s = .fault (.outOfRangeMemoryAccess ba { s with pc := s.pc + 4#32 })) ∧
    (ba ≠ s.cfg.mmioOutAddr → ba.toNat / 4 < s.cfg.memWords → ba.toNat % 4 ≠ 0 →
      exec (.sw b r imm) s = .fault (.unalignedMemoryAccess ba { s with pc := s.pc + 4#32 })) ∧
    (ba ≠ s.cfg.mmioOutAddr → ba.toNat / 4 < s.cfg.memWords → ba.toNat % 4 = 0 →
      ∃ t, exec (.sw b r imm) s = .next t ∧ t.pc = s.pc + 4#32 ∧
        t.mem.readWord (ba.toNat / 4) = s.readReg r ∧ MemKeptOutside ba s t ∧
        RegsKept s t ∧ HiLoKept s t ∧ IoKept s t ∧ CfgKept s t)

/-- The accesses at the MMIO addresses that are not intercepted take the ordinary path: a `lw` from `MMIO_OUT_ADDR`, a
`sw` to `MMIO_IN_ADDR`, a fetch and a `lis` read at either. They are out of range when the address lies beyond storage;
where storage backs it, the load and the store check alignment and then read or write the word, the fetch runs the word
and the `lis` reads it, and no channel is touched (R73). -/
def Obligations.OtherMmioAccessesAreOrdinary : Prop :=
  ∀ (s : State) (b r : Reg) (imm : Word), s.cfg.mmioOutAddr ≠ s.cfg.mmioInAddr →
    (s.readReg b + imm = s.cfg.mmioOutAddr →
      (s.cfg.memWords ≤ s.cfg.mmioOutAddr.toNat / 4 →
        exec (.lw b r imm) s = .fault (.outOfRangeMemoryAccess s.cfg.mmioOutAddr { s with pc := s.pc + 4#32 })) ∧
      (s.cfg.mmioOutAddr.toNat / 4 < s.cfg.memWords → s.cfg.mmioOutAddr.toNat % 4 ≠ 0 →
        exec (.lw b r imm) s = .fault (.unalignedMemoryAccess s.cfg.mmioOutAddr { s with pc := s.pc + 4#32 })) ∧
      (s.cfg.mmioOutAddr.toNat / 4 < s.cfg.memWords → s.cfg.mmioOutAddr.toNat % 4 = 0 →
        ∃ t, exec (.lw b r imm) s = .next t ∧
          OnlyRegWritten r (s.mem.readWord (s.cfg.mmioOutAddr.toNat / 4)) s t)) ∧
    (s.readReg b + imm = s.cfg.mmioInAddr →
      (s.cfg.memWords ≤ s.cfg.mmioInAddr.toNat / 4 →
        exec (.sw b r imm) s = .fault (.outOfRangeMemoryAccess s.cfg.mmioInAddr { s with pc := s.pc + 4#32 })) ∧
      (s.cfg.mmioInAddr.toNat / 4 < s.cfg.memWords → s.cfg.mmioInAddr.toNat % 4 ≠ 0 →
        exec (.sw b r imm) s = .fault (.unalignedMemoryAccess s.cfg.mmioInAddr { s with pc := s.pc + 4#32 })) ∧
      (s.mem.wf → s.cfg.mmioInAddr.toNat / 4 < s.cfg.memWords → s.cfg.mmioInAddr.toNat % 4 = 0 →
        ∃ t, exec (.sw b r imm) s = .next t ∧ t.pc = s.pc + 4#32 ∧
          t.mem.readWord (s.cfg.mmioInAddr.toNat / 4) = s.readReg r ∧ MemKeptOutside s.cfg.mmioInAddr s t ∧
          RegsKept s t ∧ HiLoKept s t ∧ IoKept s t ∧ CfgKept s t)) ∧
    (∀ m : Word, m = s.cfg.mmioInAddr ∨ m = s.cfg.mmioOutAddr →
      (s.pc + 4#32 = m →
        (s.cfg.memWords ≤ m.toNat / 4 →
          exec (.lis r) s = .fault (.outOfRangeMemoryAccess m { s with pc := s.pc + 4#32 })) ∧
        (m.toNat / 4 < s.cfg.memWords →
          ∃ t, exec (.lis r) s = .next t ∧ t.pc = s.pc + 8#32 ∧ RegWritten r (s.mem.readWord (m.toNat / 4)) s t ∧
            HiLoKept s t ∧ MemKept s t ∧ IoKept s t ∧ CfgKept s t)) ∧
      (s.pc = m → m.toNat % 4 = 0 → m ≠ s.cfg.haltAddr →
        (s.cfg.memWords ≤ m.toNat / 4 → step s = .fault (.outOfRangeInstructionFetch m s)) ∧
        (m.toNat / 4 < s.cfg.memWords →
          (∀ i, decode s.cfg.opcodes (s.mem.readWord (m.toNat / 4)) = .ok i → step s = exec i s) ∧
          (∀ e, decode s.cfg.opcodes (s.mem.readWord (m.toNat / 4)) = .error e →
            step s = .fault (.invalidInstruction m { s with pc := s.pc + 4#32 })))))

/-- A load returns what the last store to its word stored, and a load from any other word what was there before: after
a `sw` to memory completes, from any state that still has that memory (R80). -/
def Obligations.LoadReturnsLastStore : Prop :=
  ∀ (s t u : State) (b r b' d : Reg) (imm imm' : Word),
    s.mem.wf → effectiveAddress s b imm ≠ s.cfg.mmioOutAddr → exec (.sw b r imm) s = .next t →
    u.mem = t.mem → u.cfg = t.cfg → d ≠ 0#5 →
    effectiveAddress u b' imm' ≠ u.cfg.mmioInAddr →
    (effectiveAddress u b' imm').toNat / 4 < u.cfg.memWords → (effectiveAddress u b' imm').toNat % 4 = 0 →
    ∃ v, exec (.lw b' d imm') u = .next v ∧
      v.readReg d = if effectiveAddress u b' imm' = effectiveAddress s b imm then s.readReg r
        else s.mem.readWord ((effectiveAddress u b' imm').toNat / 4)

/-- The spec's R83, which it marks derived: a store is seen by the very next fetch of its word, and by a later `lis`
whose inline word it is: code that modifies itself needs no fence. -/
def Obligations.StoreSeenByFetchAndLis : Prop :=
  ∀ (s t : State) (b r : Reg) (imm : Word),
    s.mem.wf → effectiveAddress s b imm ≠ s.cfg.mmioOutAddr → exec (.sw b r imm) s = .next t →
    (∀ u : State, u.mem = t.mem → u.cfg = t.cfg → u.pc = effectiveAddress s b imm → u.pc ≠ u.cfg.haltAddr →
      (∀ i, decode s.cfg.opcodes (s.readReg r) = .ok i → step u = exec i u) ∧
      (∀ e, decode s.cfg.opcodes (s.readReg r) = .error e →
        step u = .fault (.invalidInstruction u.pc { u with pc := u.pc + 4#32 }))) ∧
    (∀ (u : State) (d : Reg), u.mem = t.mem → u.cfg = t.cfg → u.pc + 4#32 = effectiveAddress s b imm → d ≠ 0#5 →
      ∃ v, exec (.lis d) u = .next v ∧ v.readReg d = s.readReg r)

/-! ### Runs -/

/-- R152: the step loop returns the first status that is not `Continuing`, with the state it leaves: under fuel `n`,
exactly when fewer than `n` steps continue before one stops. -/
def Obligations.StepLoopReturnsFirstStop : Prop :=
  ∀ (n : Nat) (s : State) (r : Run),
    stepLoop n s = some r ↔
      ∃ (k : Nat) (u : State) (f : Fault), k < n ∧ Continues k s u ∧ step u = .fault f ∧
        r = { state := f.final, status := f.status }

/-- R153: a run whose last status is `Continuing` has a next step, which continues with the new pc or ends in a
terminal status; a run that has returned a terminal status has none. -/
def Obligations.TerminalStatusIsFinal : Prop :=
  (∀ s : State, (Run.start s).status = .continuing s.pc) ∧
  (∀ r : Run, r.status.terminal = true → ∀ r' : Run, r.advance ≠ .next r') ∧
  (∀ r : Run, r.status.terminal = false →
    (∃ t, step r.state = .next t ∧ r.advance = .next { state := t, status := .continuing t.pc }) ∨
    (∃ f, step r.state = .fault f ∧ f.status.terminal = true ∧
      r.advance = .next { state := f.final, status := f.status }))
end

