-- ==== Sys2Proof/Laws/Decode.lean ====
section
/-! SUPPORT. The fields of an encoded word, and the slot at which a handler is registered. -/

namespace Sys2Proof

/-! ### The fields of a register-form word -/

@[simp] theorem opcodeField_rWord (s t d : Reg) (f : Code) : opcodeField (rWord s t d f) = 0#6 := by
  apply BitVec.eq_of_getLsbD_eq
  intro i hi
  simp only [opcodeField, rWord, BitVec.getLsbD_extractLsb', BitVec.getLsbD_append]
  interval_cases i <;> simp

@[simp] theorem sField_rWord (s t d : Reg) (f : Code) : sField (rWord s t d f) = s := by
  apply BitVec.eq_of_getLsbD_eq
  intro i hi
  simp only [sField, rWord, BitVec.getLsbD_extractLsb', BitVec.getLsbD_append]
  interval_cases i <;> simp

@[simp] theorem tField_rWord (s t d : Reg) (f : Code) : tField (rWord s t d f) = t := by
  apply BitVec.eq_of_getLsbD_eq
  intro i hi
  simp only [tField, rWord, BitVec.getLsbD_extractLsb', BitVec.getLsbD_append]
  interval_cases i <;> simp

@[simp] theorem dField_rWord (s t d : Reg) (f : Code) : dField (rWord s t d f) = d := by
  apply BitVec.eq_of_getLsbD_eq
  intro i hi
  simp only [dField, rWord, BitVec.getLsbD_extractLsb', BitVec.getLsbD_append]
  interval_cases i <;> simp

@[simp] theorem functField_rWord (s t d : Reg) (f : Code) : functField (rWord s t d f) = f := by
  apply BitVec.eq_of_getLsbD_eq
  intro i hi
  simp only [functField, rWord, BitVec.getLsbD_extractLsb', BitVec.getLsbD_append]
  interval_cases i <;> simp

/-! ### The fields of an immediate-form word -/

@[simp] theorem opcodeField_iWord (o : Code) (s t : Reg) (imm : Word) : opcodeField (iWord o s t imm) = o := by
  apply BitVec.eq_of_getLsbD_eq
  intro i hi
  simp only [opcodeField, iWord, BitVec.getLsbD_extractLsb', BitVec.getLsbD_append]
  interval_cases i <;> simp

@[simp] theorem sField_iWord (o : Code) (s t : Reg) (imm : Word) : sField (iWord o s t imm) = s := by
  apply BitVec.eq_of_getLsbD_eq
  intro i hi
  simp only [sField, iWord, BitVec.getLsbD_extractLsb', BitVec.getLsbD_append]
  interval_cases i <;> simp

@[simp] theorem tField_iWord (o : Code) (s t : Reg) (imm : Word) : tField (iWord o s t imm) = t := by
  apply BitVec.eq_of_getLsbD_eq
  intro i hi
  simp only [tField, iWord, BitVec.getLsbD_extractLsb', BitVec.getLsbD_append]
  interval_cases i <;> simp

/-- A well-formed immediate is the sign extension of its low 16 bits. -/
theorem signExtend_of_immWf (imm : Word) (h : immWf imm = true) : (imm.extractLsb' 0 16).signExtend 32 = imm := by
  simp only [immWf, Bool.and_eq_true, decide_eq_true_eq] at h
  apply BitVec.eq_of_toInt_eq
  have hlt := imm.isLt
  have hx : (imm.extractLsb' 0 16).toNat = imm.toNat % 2 ^ 16 := by simp
  rw [BitVec.toInt_signExtend, BitVec.toInt_eq_toNat_bmod (imm.extractLsb' 0 16), hx]
  rw [BitVec.toInt_eq_toNat_bmod] at *
  simp only [Int.bmod_def, show min 32 16 = 16 from rfl] at *
  omega

theorem immField_iWord (o : Code) (s t : Reg) (imm : Word) (h : immWf imm = true) :
    immField (iWord o s t imm) = imm := by
  have e : (iWord o s t imm).extractLsb' 0 16 = imm.extractLsb' 0 16 := by
    apply BitVec.eq_of_getLsbD_eq
    intro i hi
    simp only [iWord, BitVec.getLsbD_extractLsb', BitVec.getLsbD_append]
    interval_cases i <;> simp
  rw [immField, e, signExtend_of_immWf imm h]

/-! ### The dispatch tables -/

/-- A slot holds only the handler whose code it is. -/
theorem rtab_some (m : OpcodeMap) (c : Code) (op : ROp) (h : rtab m c = some op) : m.funct op = c := by
  simpa using List.find?_some h

theorem itab_some (m : OpcodeMap) (c : Code) (op : IOp) (h : itab m c = some op) : m.opcode op = c := by
  simpa using List.find?_some h

/-- Every operation is in the list of all. -/
theorem ROp.mem_all (op : ROp) : op ∈ ROp.all := by cases op <;> decide

theorem IOp.mem_all (op : IOp) : op ∈ IOp.all := by cases op <;> decide

theorem OpcodeMap.wf_iff (m : OpcodeMap) :
    m.wf = true ↔ (ROp.all.map m.funct).Nodup ∧ (IOp.all.map m.opcode).Nodup ∧ ∀ op, m.opcode op ≠ 0#6 := by
  simp only [OpcodeMap.wf, Bool.and_eq_true, decide_eq_true_eq, List.all_eq_true, bne_iff_ne, and_assoc]
  exact ⟨fun ⟨a, b, c⟩ => ⟨a, b, fun op => c op op.mem_all⟩, fun ⟨a, b, c⟩ => ⟨a, b, fun op _ => c op⟩⟩

/-- In a well-formed map the slot at an operation's function code holds that operation. -/
theorem rtab_funct (m : OpcodeMap) (hm : m.wf = true) (op : ROp) : rtab m (m.funct op) = some op := by
  have inj := List.inj_on_of_nodup_map (m.wf_iff.1 hm).1
  cases hf : rtab m (m.funct op) with
  | none =>
    have := List.find?_eq_none.1 hf op op.mem_all
    simp at this
  | some op' => rw [inj op'.mem_all op.mem_all (rtab_some m _ _ hf)]

theorem itab_opcode (m : OpcodeMap) (hm : m.wf = true) (op : IOp) : itab m (m.opcode op) = some op := by
  have inj := List.inj_on_of_nodup_map (m.wf_iff.1 hm).2.1
  cases hf : itab m (m.opcode op) with
  | none =>
    have := List.find?_eq_none.1 hf op op.mem_all
    simp at this
  | some op' => rw [inj op'.mem_all op.mem_all (itab_some m _ _ hf)]

end Sys2Proof
end

