-- ==== Sys2Proof/Laws/Dump.lean ====
section
/-! SUPPORT. What a memory dump holds (R74). -/

namespace Sys2Proof.Machine

@[simp] theorem dumpWords_zero (m : Memory) (k : Nat) : dumpWords m k 0 = [] := rfl

@[simp] theorem length_wordBytes (w : Word) : (wordBytes w).length = 4 := rfl

@[simp] theorem length_dumpWords (m : Memory) (k n : Nat) : (dumpWords m k n).length = 4 * n := by
  induction n generalizing k with
  | zero => rfl
  | succ n ih => simp [dumpWords, ih]; omega

/-- Byte `4j + b` of a dump is byte `b` of its word `j`. -/
theorem getD_dumpWords (m : Memory) (k n j b : Nat) (hj : j < n) (hb : b < 4) :
    (dumpWords m k n).getD (4 * j + b) 0#8 = (wordBytes (m.readWord (k + j))).getD b 0#8 := by
  induction n generalizing k j with
  | zero => omega
  | succ n ih =>
    rw [dumpWords]
    cases j with
    | zero =>
      rw [List.getD_append _ _ _ _ (by simpa using hb)]
      simp
    | succ j =>
      rw [List.getD_append_right _ _ _ _ (by simp; omega), length_wordBytes,
        show 4 * (j + 1) + b - 4 = 4 * j + b by omega, ih (k + 1) j (by omega),
        show k + 1 + j = k + (j + 1) by omega]

end Sys2Proof.Machine
end

