-- ==== Sys2Proof/Laws/Memory.lean ====
section
/-! SUPPORT. The laws of memory: a read after a write, the canonical form, and that equal contents are equal data. -/

namespace Sys2Proof.Machine

@[simp] theorem readByte_nil (a : Nat) : Memory.readByte [] a = 0#8 := rfl

theorem readByte_cons (b : Nat) (v : Byte) (m : Memory) (a : Nat) :
    Memory.readByte ((b, v) :: m) a = if a = b then v else m.readByte a := rfl

/-- An address below every listed one reads as unlisted. -/
theorem readByte_of_lt_all (m : Memory) (a : Nat) (h : ∀ c ∈ m, a < c.1) : m.readByte a = 0#8 := by
  induction m with
  | nil => rfl
  | cons c m ih =>
    obtain ⟨b, v⟩ := c
    have hb : a < b := h (b, v) (by simp)
    rw [readByte_cons, if_neg (by omega), ih fun c hc => h c (by simp [hc])]

/-- Every address listed after a write was listed before, or is the one written. -/
theorem mem_writeByte (m : Memory) (a : Nat) (v : Byte) (c : Host.Cell) (hc : c ∈ m.writeByte a v) :
    c ∈ m ∨ c = (a, v) := by
  induction m with
  | nil =>
    unfold Memory.writeByte at hc
    split at hc <;> simp_all
  | cons d m ih =>
    obtain ⟨b, w⟩ := d
    unfold Memory.writeByte at hc
    split at hc
    · split at hc
      · exact .inl hc
      · rcases List.mem_cons.1 hc with h | h
        · exact .inr h
        · exact .inl h
    · split at hc
      · split at hc
        · exact .inl (List.mem_cons_of_mem _ hc)
        · rcases List.mem_cons.1 hc with h | h
          · exact .inr h
          · exact .inl (List.mem_cons_of_mem _ h)
      · rcases List.mem_cons.1 hc with h | h
        · exact .inl (h ▸ List.mem_cons_self)
        · exact (ih h).imp_left (List.mem_cons_of_mem _)

/-- A write of one byte keeps the canonical form. -/
theorem writeByte_wf (m : Memory) (a : Nat) (v : Byte) (h : m.wf) : (m.writeByte a v).wf := by
  induction m with
  | nil =>
    unfold Memory.writeByte
    split
    · exact h
    · exact ⟨by simp, by simpa using ‹¬v = 0#8›⟩
  | cons d m ih =>
    obtain ⟨b, w⟩ := d
    obtain ⟨hp, hz⟩ := h
    obtain ⟨hlt, hp'⟩ := List.pairwise_cons.1 hp
    have hm : Memory.wf m := ⟨hp', fun c hc => hz c (List.mem_cons_of_mem _ hc)⟩
    unfold Memory.writeByte
    split
    · rename_i hab
      split
      · exact ⟨hp, hz⟩
      · refine ⟨List.pairwise_cons.2 ⟨fun c hc => ?_, hp⟩, fun c hc => ?_⟩
        · rcases List.mem_cons.1 hc with rfl | hc
          · exact hab
          · exact Nat.lt_trans hab (hlt c hc)
        · rcases List.mem_cons.1 hc with rfl | hc
          · assumption
          · exact hz c hc
    · split
      · rename_i _ hab
        subst hab
        split
        · exact hm
        · refine ⟨List.pairwise_cons.2 ⟨hlt, hp'⟩, fun c hc => ?_⟩
          rcases List.mem_cons.1 hc with rfl | hc
          · assumption
          · exact hm.2 c hc
      · rename_i h1 h2
        obtain ⟨ihp, ihz⟩ := ih hm
        refine ⟨List.pairwise_cons.2 ⟨fun c hc => ?_, ihp⟩, fun c hc => ?_⟩
        · rcases mem_writeByte m a v c hc with hc | rfl
          · exact hlt c hc
          · show b < a
            omega
        · rcases List.mem_cons.1 hc with rfl | hc
          · exact hz _ List.mem_cons_self
          · exact ihz c hc

/-- A byte read after a byte written, in a canonical memory: the byte written, or the byte as it was. -/
theorem readByte_writeByte (m : Memory) (a b : Nat) (v : Byte) (h : m.wf) :
    (m.writeByte a v).readByte b = if b = a then v else m.readByte b := by
  induction m with
  | nil =>
    unfold Memory.writeByte
    split
    · simp_all
    · rw [readByte_cons]
  | cons d m ih =>
    obtain ⟨e, w⟩ := d
    obtain ⟨hp, hz⟩ := h
    obtain ⟨hlt, hp'⟩ := List.pairwise_cons.1 hp
    have hm : Memory.wf m := ⟨hp', fun c hc => hz c (List.mem_cons_of_mem _ hc)⟩
    have low : ∀ x, x ≤ e → Memory.readByte m x = 0#8 := fun x hx =>
      readByte_of_lt_all m x fun c hc => Nat.lt_of_le_of_lt hx (hlt c hc)
    unfold Memory.writeByte
    split
    · rename_i hae
      split
      · rename_i hv
        by_cases hb : b = a
        · rw [if_pos hb, hv, readByte_cons, if_neg (by omega), low b (by omega)]
        · rw [if_neg hb]
      · rw [readByte_cons]
    · split
      · rename_i _ hae
        subst hae
        split
        · rename_i hv
          by_cases hb : b = a
          · rw [if_pos hb, hv, low b (by omega)]
          · rw [if_neg hb, readByte_cons, if_neg hb]
        · rw [readByte_cons, readByte_cons]
          split <;> rfl
      · rename_i h1 h2
        rw [readByte_cons, readByte_cons, ih hm]
        by_cases hb : b = e
        · rw [if_pos hb, if_pos hb, if_neg (by omega)]
        · rw [if_neg hb, if_neg hb]

/-! ### Words -/

/-- Every word of the reset memory is zero. -/
@[simp] theorem readWord_nil (k : Nat) : Memory.readWord [] k = 0#32 := by
  simp only [Memory.readWord, readByte_nil]
  decide

/-- A write of one word keeps the canonical form. -/
theorem writeWord_wf (m : Memory) (k : Nat) (v : Word) (h : m.wf) : (m.writeWord k v).wf :=
  writeByte_wf _ _ _ (writeByte_wf _ _ _ (writeByte_wf _ _ _ (writeByte_wf _ _ _ h)))

/-- A write of one word lists no new address but its own four. -/
theorem mem_writeWord (m : Memory) (k : Nat) (v : Word) (c : Host.Cell) (hc : c ∈ m.writeWord k v) :
    c ∈ m ∨ (4 * k ≤ c.1 ∧ c.1 < 4 * k + 4) := by
  unfold Memory.writeWord at hc
  rcases mem_writeByte _ _ _ _ hc with hc | rfl
  · rcases mem_writeByte _ _ _ _ hc with hc | rfl
    · rcases mem_writeByte _ _ _ _ hc with hc | rfl
      · rcases mem_writeByte _ _ _ _ hc with hc | rfl
        · exact .inl hc
        · exact .inr ⟨by simp, by simp⟩
      · exact .inr ⟨by simp, by simp⟩
    · exact .inr ⟨by simp, by simp⟩
  · exact .inr ⟨by simp, by simp⟩

/-- A byte read after a word written. -/
theorem readByte_writeWord (m : Memory) (k a : Nat) (v : Word) (h : m.wf) :
    (m.writeWord k v).readByte a =
      if a = 4 * k + 3 then v.extractLsb' 0 8
      else if a = 4 * k + 2 then v.extractLsb' 8 8
      else if a = 4 * k + 1 then v.extractLsb' 16 8
      else if a = 4 * k then v.extractLsb' 24 8
      else m.readByte a := by
  have h1 := writeByte_wf m (4 * k) (v.extractLsb' 24 8) h
  have h2 := writeByte_wf _ (4 * k + 1) (v.extractLsb' 16 8) h1
  have h3 := writeByte_wf _ (4 * k + 2) (v.extractLsb' 8 8) h2
  unfold Memory.writeWord
  rw [readByte_writeByte _ _ _ _ h3, readByte_writeByte _ _ _ _ h2, readByte_writeByte _ _ _ _ h1,
    readByte_writeByte _ _ _ _ h]

/-- A byte outside the word written reads as before. -/
theorem readByte_writeWord_outside (m : Memory) (k a : Nat) (v : Word) (h : m.wf)
    (ha : a < 4 * k ∨ 4 * k + 4 ≤ a) : (m.writeWord k v).readByte a = m.readByte a := by
  rw [readByte_writeWord m k a v h, if_neg (by omega), if_neg (by omega), if_neg (by omega), if_neg (by omega)]

/-- The four bytes of a word, joined again. -/
theorem bytes_join (v : Word) :
    v.extractLsb' 24 8 ++ v.extractLsb' 16 8 ++ v.extractLsb' 8 8 ++ v.extractLsb' 0 8 = v := by
  apply BitVec.eq_of_getLsbD_eq
  intro i hi
  simp only [BitVec.getLsbD_append, BitVec.getLsbD_extractLsb']
  by_cases h0 : i < 8
  · simp [h0]
  · by_cases h1 : i < 16
    · have : i - 8 < 8 := by omega
      simp [h0, this, show 8 + (i - 8) = i by omega]
    · by_cases h2 : i < 24
      · have : ¬ i - 8 < 8 := by omega
        have h4 : i - 8 - 8 < 8 := by omega
        simp [h0, this, h4, show 16 + (i - 8 - 8) = i by omega]
      · have h3 : ¬ i - 8 < 8 := by omega
        have h4 : ¬ i - 8 - 8 < 8 := by omega
        have h5 : i - 8 - 8 - 8 < 8 := by omega
        simp [h0, h3, h4, h5, show 24 + (i - 8 - 8 - 8) = i by omega]

/-- A word read after a word written: the word written, or the word as it was. -/
theorem readWord_writeWord (m : Memory) (j k : Nat) (v : Word) (h : m.wf) :
    (m.writeWord k v).readWord j = if j = k then v else m.readWord j := by
  by_cases hjk : j = k
  · subst hjk
    rw [if_pos rfl]
    unfold Memory.readWord
    rw [readByte_writeWord m j _ v h, readByte_writeWord m j _ v h, readByte_writeWord m j _ v h,
      readByte_writeWord m j _ v h]
    simpa using bytes_join v
  · rw [if_neg hjk]
    unfold Memory.readWord
    rw [readByte_writeWord_outside m k _ v h (by omega), readByte_writeWord_outside m k _ v h (by omega),
      readByte_writeWord_outside m k _ v h (by omega), readByte_writeWord_outside m k _ v h (by omega)]

/-! ### Equal contents are equal data -/

/-- Two canonical memories in which every byte reads the same are the same list. -/
theorem wf_ext (m n : Memory) (hm : m.wf) (hn : n.wf) (h : ∀ a, m.readByte a = n.readByte a) : m = n := by
  induction m generalizing n with
  | nil =>
    cases n with
    | nil => rfl
    | cons c n =>
      obtain ⟨b, v⟩ := c
      have := h b
      rw [readByte_cons, if_pos rfl, readByte_nil] at this
      exact absurd this.symm (hn.2 _ List.mem_cons_self)
  | cons c m ih =>
    obtain ⟨b, v⟩ := c
    obtain ⟨hlt, hp⟩ := List.pairwise_cons.1 hm.1
    have hm' : Memory.wf m := ⟨hp, fun c hc => hm.2 c (List.mem_cons_of_mem _ hc)⟩
    have hv : v ≠ 0#8 := hm.2 (b, v) List.mem_cons_self
    cases n with
    | nil =>
      have := h b
      rw [readByte_cons, if_pos rfl, readByte_nil] at this
      exact absurd this hv
    | cons d n =>
      obtain ⟨e, w⟩ := d
      obtain ⟨hlt', hp'⟩ := List.pairwise_cons.1 hn.1
      have hn' : Memory.wf n := ⟨hp', fun c hc => hn.2 c (List.mem_cons_of_mem _ hc)⟩
      have hw : w ≠ 0#8 := hn.2 (e, w) List.mem_cons_self
      have hbe : b = e := by
        rcases Nat.lt_trichotomy b e with hb | hb | hb
        · have := h b
          rw [readByte_cons, if_pos rfl, readByte_cons, if_neg (by omega),
            readByte_of_lt_all n b fun c hc => Nat.lt_trans hb (hlt' c hc)] at this
          exact absurd this hv
        · exact hb
        · have := h e
          rw [readByte_cons, if_neg (by omega), readByte_cons, if_pos rfl,
            readByte_of_lt_all m e fun c hc => Nat.lt_trans hb (hlt c hc)] at this
          exact absurd this.symm hw
      subst hbe
      have hvw : v = w := by simpa [readByte_cons] using h b
      subst hvw
      rw [ih n hm' hn' fun a => ?_]
      by_cases hab : a = b
      · subst hab
        rw [readByte_of_lt_all m a hlt, readByte_of_lt_all n a hlt']
      · simpa [readByte_cons, hab] using h a

end Sys2Proof.Machine
end

