-- ==== Sys2Proof/Laws/State.lean ====
section
/-! SUPPORT. One lemma per field per update of the state, so that no later proof unfolds an update. -/

namespace Sys2Proof.Machine

/-! ### `writeReg` -/

@[simp] theorem writeReg_cfg (s : State) (r : Reg) (v : Word) : (s.writeReg r v).cfg = s.cfg := rfl
@[simp] theorem writeReg_pc (s : State) (r : Reg) (v : Word) : (s.writeReg r v).pc = s.pc := rfl
@[simp] theorem writeReg_hi (s : State) (r : Reg) (v : Word) : (s.writeReg r v).hi = s.hi := rfl
@[simp] theorem writeReg_lo (s : State) (r : Reg) (v : Word) : (s.writeReg r v).lo = s.lo := rfl
@[simp] theorem writeReg_mem (s : State) (r : Reg) (v : Word) : (s.writeReg r v).mem = s.mem := rfl
@[simp] theorem writeReg_input (s : State) (r : Reg) (v : Word) : (s.writeReg r v).input = s.input := rfl
@[simp] theorem writeReg_output (s : State) (r : Reg) (v : Word) : (s.writeReg r v).output = s.output := rfl

/-- A register read after a write: the value written, or the register as it was. -/
@[simp] theorem readReg_writeReg (s : State) (r q : Reg) (v : Word) :
    (s.writeReg r v).readReg q = if q = r then v else s.readReg q := by
  unfold State.readReg State.writeReg
  rw [Vector.getElem_set]
  by_cases h : q = r
  · simp [h]
  · have : ¬ r.toNat = q.toNat := fun e => h (BitVec.eq_of_toNat_eq e.symm)
    simp [h, this]

/-! ### `setPc` and `advance` -/

@[simp] theorem setPc_cfg (s : State) (a : Word) : (s.setPc a).cfg = s.cfg := rfl
@[simp] theorem setPc_pc (s : State) (a : Word) : (s.setPc a).pc = a := rfl
@[simp] theorem setPc_hi (s : State) (a : Word) : (s.setPc a).hi = s.hi := rfl
@[simp] theorem setPc_lo (s : State) (a : Word) : (s.setPc a).lo = s.lo := rfl
@[simp] theorem setPc_mem (s : State) (a : Word) : (s.setPc a).mem = s.mem := rfl
@[simp] theorem setPc_input (s : State) (a : Word) : (s.setPc a).input = s.input := rfl
@[simp] theorem setPc_output (s : State) (a : Word) : (s.setPc a).output = s.output := rfl
@[simp] theorem setPc_readReg (s : State) (a : Word) (r : Reg) : (s.setPc a).readReg r = s.readReg r := rfl

@[simp] theorem advance_cfg (s : State) : s.advance.cfg = s.cfg := rfl
@[simp] theorem advance_pc (s : State) : s.advance.pc = s.pc + 4#32 := rfl
@[simp] theorem advance_hi (s : State) : s.advance.hi = s.hi := rfl
@[simp] theorem advance_lo (s : State) : s.advance.lo = s.lo := rfl
@[simp] theorem advance_mem (s : State) : s.advance.mem = s.mem := rfl
@[simp] theorem advance_input (s : State) : s.advance.input = s.input := rfl
@[simp] theorem advance_output (s : State) : s.advance.output = s.output := rfl
@[simp] theorem advance_readReg (s : State) (r : Reg) : s.advance.readReg r = s.readReg r := rfl

/-! ### `setHiLo` -/

@[simp] theorem setHiLo_cfg (s : State) (h l : Word) : (s.setHiLo h l).cfg = s.cfg := rfl
@[simp] theorem setHiLo_pc (s : State) (h l : Word) : (s.setHiLo h l).pc = s.pc := rfl
@[simp] theorem setHiLo_hi (s : State) (h l : Word) : (s.setHiLo h l).hi = h := rfl
@[simp] theorem setHiLo_lo (s : State) (h l : Word) : (s.setHiLo h l).lo = l := rfl
@[simp] theorem setHiLo_mem (s : State) (h l : Word) : (s.setHiLo h l).mem = s.mem := rfl
@[simp] theorem setHiLo_input (s : State) (h l : Word) : (s.setHiLo h l).input = s.input := rfl
@[simp] theorem setHiLo_output (s : State) (h l : Word) : (s.setHiLo h l).output = s.output := rfl
@[simp] theorem setHiLo_readReg (s : State) (h l : Word) (r : Reg) :
    (s.setHiLo h l).readReg r = s.readReg r := rfl

/-! ### `memWrite` -/

@[simp] theorem memWrite_cfg (s : State) (a v : Word) : (s.memWrite a v).cfg = s.cfg := rfl
@[simp] theorem memWrite_pc (s : State) (a v : Word) : (s.memWrite a v).pc = s.pc := rfl
@[simp] theorem memWrite_hi (s : State) (a v : Word) : (s.memWrite a v).hi = s.hi := rfl
@[simp] theorem memWrite_lo (s : State) (a v : Word) : (s.memWrite a v).lo = s.lo := rfl
@[simp] theorem memWrite_mem (s : State) (a v : Word) :
    (s.memWrite a v).mem = s.mem.writeWord (wordAddr a) v := rfl
@[simp] theorem memWrite_input (s : State) (a v : Word) : (s.memWrite a v).input = s.input := rfl
@[simp] theorem memWrite_output (s : State) (a v : Word) : (s.memWrite a v).output = s.output := rfl
@[simp] theorem memWrite_readReg (s : State) (a v : Word) (r : Reg) :
    (s.memWrite a v).readReg r = s.readReg r := rfl

/-! ### `outByte` -/

@[simp] theorem outByte_cfg (s : State) (b : Byte) : (s.outByte b).cfg = s.cfg := rfl
@[simp] theorem outByte_pc (s : State) (b : Byte) : (s.outByte b).pc = s.pc := rfl
@[simp] theorem outByte_hi (s : State) (b : Byte) : (s.outByte b).hi = s.hi := rfl
@[simp] theorem outByte_lo (s : State) (b : Byte) : (s.outByte b).lo = s.lo := rfl
@[simp] theorem outByte_mem (s : State) (b : Byte) : (s.outByte b).mem = s.mem := rfl
@[simp] theorem outByte_input (s : State) (b : Byte) : (s.outByte b).input = s.input := rfl
@[simp] theorem outByte_output (s : State) (b : Byte) : (s.outByte b).output = s.output ++ [b] := rfl
@[simp] theorem outByte_readReg (s : State) (b : Byte) (r : Reg) : (s.outByte b).readReg r = s.readReg r := rfl

/-! ### `withInput` and `withHiLo` -/

@[simp] theorem withInput_cfg (s : State) (l : List Byte) : (s.withInput l).cfg = s.cfg := rfl
@[simp] theorem withInput_pc (s : State) (l : List Byte) : (s.withInput l).pc = s.pc := rfl
@[simp] theorem withInput_hi (s : State) (l : List Byte) : (s.withInput l).hi = s.hi := rfl
@[simp] theorem withInput_lo (s : State) (l : List Byte) : (s.withInput l).lo = s.lo := rfl
@[simp] theorem withInput_mem (s : State) (l : List Byte) : (s.withInput l).mem = s.mem := rfl
@[simp] theorem withInput_input (s : State) (l : List Byte) : (s.withInput l).input = l := rfl
@[simp] theorem withInput_output (s : State) (l : List Byte) : (s.withInput l).output = s.output := rfl
@[simp] theorem withInput_readReg (s : State) (l : List Byte) (r : Reg) :
    (s.withInput l).readReg r = s.readReg r := rfl

@[simp] theorem withHiLo_cfg (s : State) (h l : Word) : (s.withHiLo h l).cfg = s.cfg := rfl
@[simp] theorem withHiLo_pc (s : State) (h l : Word) : (s.withHiLo h l).pc = s.pc := rfl
@[simp] theorem withHiLo_hi (s : State) (h l : Word) : (s.withHiLo h l).hi = h := rfl
@[simp] theorem withHiLo_lo (s : State) (h l : Word) : (s.withHiLo h l).lo = l := rfl
@[simp] theorem withHiLo_mem (s : State) (h l : Word) : (s.withHiLo h l).mem = s.mem := rfl
@[simp] theorem withHiLo_input (s : State) (h l : Word) : (s.withHiLo h l).input = s.input := rfl
@[simp] theorem withHiLo_output (s : State) (h l : Word) : (s.withHiLo h l).output = s.output := rfl
@[simp] theorem withHiLo_readReg (s : State) (h l : Word) (r : Reg) :
    (s.withHiLo h l).readReg r = s.readReg r := rfl

/-! ### Reset -/

@[simp] theorem reset_cfg : State.reset.cfg = Config.default := rfl
@[simp] theorem reset_pc : State.reset.pc = 0#32 := rfl
@[simp] theorem reset_hi : State.reset.hi = 0#32 := rfl
@[simp] theorem reset_lo : State.reset.lo = 0#32 := rfl
@[simp] theorem reset_mem : State.reset.mem = [] := rfl
@[simp] theorem reset_input : State.reset.input = [] := rfl
@[simp] theorem reset_output : State.reset.output = [] := rfl
@[simp] theorem reset_readReg (r : Reg) : State.reset.readReg r = 0#32 := by
  simp [State.readReg, State.reset]

end Sys2Proof.Machine
end

