-- ==== Sys2Proof/Laws/Ops.lean ====
section
/-! SUPPORT. What each shared operation of the machine can do, said once. -/

namespace Sys2Proof.Machine

/-! ### How a handler ends -/

/-- A completed handler answers the next state, with `x[0]` zero. -/
theorem complete_eq (s : State) : complete s = .next (s.writeReg 0#5 0#32) := rfl

theorem complete_next_iff (s t : State) : complete s = .next t ↔ t = s.writeReg 0#5 0#32 := by
  simp [complete, eq_comm]

theorem complete_ne_fault (s : State) (f : Fault) : complete s ≠ .fault f := by simp [complete]

theorem complete_ne_refused (s : State) (r : Refusal) : complete s ≠ .refused r := by simp [complete]

theorem raise_eq (k : Word → State → Fault) (v : Word) (s : State) : raise k v s = .fault (k v s) := rfl

theorem raise_ne_next (k : Word → State → Fault) (v : Word) (s t : State) : raise k v s ≠ .next t := by
  simp [raise]

theorem raise_ne_refused (k : Word → State → Fault) (v : Word) (s : State) (r : Refusal) :
    raise k v s ≠ .refused r := by
  simp [raise]

/-- An address is in range exactly when its word index is below `MEM_WORDS`. -/
theorem inRange_iff (s : State) (a : Word) : s.inRange a = true ↔ a.toNat / 4 < s.cfg.memWords := by
  simp only [State.inRange, decide_eq_true_eq]
  rfl

/-- An address is aligned exactly when it is a multiple of 4. -/
theorem aligned_iff (a : Word) : aligned a = true ↔ a.toNat % 4 = 0 := by
  simp [aligned]

/-- What the two checks of a data access can do: a fault that leaves the state as it was, or the access. -/
theorem checkedAccess_cases (s : State) (a : Word) (access : Result) :
    (¬ wordAddr a < s.cfg.memWords ∧ checkedAccess s a access = .fault (.outOfRangeMemoryAccess a s)) ∨
    (wordAddr a < s.cfg.memWords ∧ a.toNat % 4 ≠ 0 ∧
      checkedAccess s a access = .fault (.unalignedMemoryAccess a s)) ∨
    (wordAddr a < s.cfg.memWords ∧ a.toNat % 4 = 0 ∧ checkedAccess s a access = access) := by
  unfold checkedAccess State.inRange aligned raise
  by_cases h : wordAddr a < s.cfg.memWords
  · by_cases h' : a.toNat % 4 = 0 <;> simp [h, h']
  · simp [h]

/-! ### The character channels -/

/-- What `InByte()` can do: nothing, on an empty channel, or consume the first byte. -/
theorem inByte_cases (s : State) :
    (s.input = [] ∧ s.inByte = none) ∨
    (∃ c rest, s.input = c :: rest ∧ s.inByte = some (c, s.withInput rest)) := by
  unfold State.inByte State.withInput
  cases h : s.input with
  | nil => simp
  | cons c rest => simp

/-! ### Memory through the state -/

theorem memRead_memWrite (s : State) (a b v : Word) (h : s.mem.wf) :
    (s.memWrite a v).memRead b = if wordAddr b = wordAddr a then v else s.memRead b :=
  readWord_writeWord s.mem (wordAddr b) (wordAddr a) v h

/-- An aligned address is four times its word address. -/
theorem four_mul_wordAddr (a : Word) (h : a.toNat % 4 = 0) : 4 * wordAddr a = a.toNat := by
  unfold wordAddr
  omega

@[simp] theorem writeReg_memRead (s : State) (r : Reg) (v a : Word) :
    (s.writeReg r v).memRead a = s.memRead a := rfl
@[simp] theorem setPc_memRead (s : State) (b a : Word) : (s.setPc b).memRead a = s.memRead a := rfl
@[simp] theorem advance_memRead (s : State) (a : Word) : s.advance.memRead a = s.memRead a := rfl
@[simp] theorem setHiLo_memRead (s : State) (h l a : Word) : (s.setHiLo h l).memRead a = s.memRead a := rfl
@[simp] theorem outByte_memRead (s : State) (b : Byte) (a : Word) : (s.outByte b).memRead a = s.memRead a := rfl
@[simp] theorem withInput_memRead (s : State) (l : List Byte) (a : Word) :
    (s.withInput l).memRead a = s.memRead a := rfl
@[simp] theorem withHiLo_memRead (s : State) (h l a : Word) : (s.withHiLo h l).memRead a = s.memRead a := rfl

/-! ### The step -/

/-- The three checks of the fetch, as the three facts they are. -/
theorem fetchOk_iff_checks (s : State) :
    fetchOk s = true ↔ s.pc.toNat % 4 = 0 ∧ s.pc ≠ s.cfg.haltAddr ∧ s.pc.toNat / 4 < s.cfg.memWords := by
  simp [fetchOk, and_assoc]

/-- What a step can do: one of the fetch's three stops, the invalid-instruction handler, or the decoded
instruction. -/
theorem step_cases (s : State) :
    (s.pc.toNat % 4 ≠ 0 ∧ step s = .fault (.unalignedInstructionFetch s.pc s)) ∨
    (s.pc.toNat % 4 = 0 ∧ s.pc = s.cfg.haltAddr ∧ step s = .fault (.halted s.pc s)) ∨
    (s.pc.toNat % 4 = 0 ∧ s.pc ≠ s.cfg.haltAddr ∧ ¬ wordAddr s.pc < s.cfg.memWords ∧
      step s = .fault (.outOfRangeInstructionFetch s.pc s)) ∨
    (fetchOk s = true ∧ (∃ e, decode s.cfg.opcodes (s.memRead s.pc) = .error e) ∧
      step s = .fault (.invalidInstruction s.pc s.advance)) ∨
    (∃ i, Runs s i ∧ step s = exec i s) := by
  unfold step cycle aligned State.inRange Runs fetchOk
  by_cases h1 : s.pc.toNat % 4 = 0
  · by_cases h2 : s.pc = s.cfg.haltAddr
    · right; left
      simp [h2, raise]
      simp [← h2, h1]
    · by_cases h3 : wordAddr s.pc < s.cfg.memWords
      · right; right; right
        have h3' : s.pc.toNat / 4 < s.cfg.memWords := h3
        unfold runWord fetchWord
        cases hd : decode s.cfg.opcodes (s.memRead s.pc) with
        | error e => left; simp [h1, h2, h3, h3', raise]
        | ok i => right; simp [h1, h2, h3, h3']
      · right; right; left
        simp [h1, h2, h3, raise]
  · left
    simp [h1, raise]

end Sys2Proof.Machine
end

