-- ==== Sys2Proof/Laws/Loader.lean ====
section
/-! SUPPORT. What creation answers, which words an image holds and what placing them in memory does (R340, R342). -/

namespace Sys2Proof.Machine

/-! ### Creation and the words of an image -/

/-- Creation that answers gives the reset state with a legal configuration and the host's input. -/
theorem create_ok (bytes : Nat) (cfg : Config) (input : List Byte) (s : State)
    (h : create bytes cfg input = .ok s) :
    ∃ c : Config, c.wf = true ∧ s = { State.reset with cfg := c, input := input } := by
  unfold create at h
  split at h
  · cases h
  · simp only at h
    split at h
    · cases h
      exact ⟨_, ‹_›, rfl⟩
    · cases h

/-- An image of `4n` bytes is `n` words, word `k` made of bytes `4k` to `4k + 3`. -/
theorem imageWords_some (image : List Byte) (n : Nat) (h : image.length = 4 * n) :
    ∃ ws, imageWords image = some ws ∧ ws.length = n ∧ ∀ k, k < n →
      ws[k]? = some (image.getD (4 * k) 0#8 ++ image.getD (4 * k + 1) 0#8 ++ image.getD (4 * k + 2) 0#8 ++
        image.getD (4 * k + 3) 0#8) := by
  induction image using imageWords.induct generalizing n with
  | case1 =>
    obtain rfl : n = 0 := by simpa using h.symm
    exact ⟨[], rfl, rfl, by simp⟩
  | case2 b0 b1 b2 b3 rest ih =>
    obtain ⟨n, rfl⟩ : ∃ k, n = k + 1 := ⟨n - 1, by simp at h; omega⟩
    obtain ⟨ws, h1, h2, h3⟩ := ih n (by simp at h; omega)
    refine ⟨(b0 ++ b1 ++ b2 ++ b3) :: ws, by simp [imageWords, h1], by simp [h2], ?_⟩
    intro k hk
    cases k with
    | zero => simp
    | succ k =>
      rw [List.getElem?_cons_succ, h3 k (by omega), show 4 * (k + 1) = 4 * k + 1 + 1 + 1 + 1 by omega]
      simp
  | case3 l h1 h2 =>
    exfalso
    match l, h1, h2 with
    | [], a, _ => exact a rfl
    | [_], _, _ => simp at h; omega
    | [_, _], _, _ => simp at h; omega
    | [_, _, _], _, _ => simp at h; omega
    | a :: b :: c :: d :: r, _, x => exact x a b c d r rfl

/-- An image that is no whole number of words has none. -/
theorem imageWords_none (image : List Byte) (h : image.length % 4 ≠ 0) : imageWords image = none := by
  induction image using imageWords.induct with
  | case1 => simp at h
  | case2 b0 b1 b2 b3 rest ih =>
    simp only [List.length_cons] at h
    simp [imageWords, ih (by omega)]
  | case3 l h1 h2 =>
    unfold imageWords
    split
    · exact absurd rfl h1
    · exact absurd rfl (h2 _ _ _ _ _)
    · rfl

/-! ### Placing an image -/

/-- Placing an image keeps the canonical form. -/
theorem placeWords_wf (ws : List Word) (m : Memory) (k : Nat) (h : m.wf) : (placeWords m k ws).wf := by
  induction ws generalizing m k with
  | nil => exact h
  | cons w ws ih => exact ih _ _ (writeWord_wf m k w h)

/-- A word read after an image is placed: the image's word there, or the word as it was. -/
theorem readWord_placeWords (ws : List Word) (m : Memory) (k j : Nat) (h : m.wf) :
    (placeWords m k ws).readWord j =
      if k ≤ j then (ws[j - k]?).getD (m.readWord j) else m.readWord j := by
  induction ws generalizing m k with
  | nil => simp [placeWords]
  | cons w ws ih =>
    rw [placeWords, ih _ _ (writeWord_wf m k w h), readWord_writeWord m j k w h]
    by_cases hk : k ≤ j
    · by_cases hkj : j = k
      · subst hkj
        simp
      · have h1 : k + 1 ≤ j := by omega
        have h2 : j - k = (j - (k + 1)) + 1 := by omega
        simp [hk, hkj, h1, h2]
    · simp [hk, show ¬ k + 1 ≤ j by omega, show j ≠ k by omega]

/-- Placing an image lists no address outside the image's own words. -/
theorem mem_placeWords (ws : List Word) (m : Memory) (k : Nat) (c : Host.Cell)
    (hc : c ∈ placeWords m k ws) : c ∈ m ∨ (4 * k ≤ c.1 ∧ c.1 < 4 * (k + ws.length)) := by
  induction ws generalizing m k with
  | nil => exact .inl hc
  | cons w ws ih =>
    rcases ih _ _ hc with h | ⟨h1, h2⟩
    · rcases mem_writeWord m k w c h with h | ⟨h1, h2⟩
      · exact .inl h
      · exact .inr ⟨h1, by simp only [List.length_cons]; omega⟩
    · exact .inr ⟨by omega, by simp only [List.length_cons]; omega⟩

end Sys2Proof.Machine
end

