-- ==== Sys2Proof/Laws/PerInstr.lean ====
section
/-! SUPPORT. The family DescribesAs: the descriptor that each instruction's encoded word has (R103, R104). -/

namespace Sys2Proof.Laws

/-- The descriptor of an instruction's canonical word: its operands, zero in the ignored fields, its code. -/
def descriptorOf (m : OpcodeMap) : Instr → Descriptor
  | .add d s t => .registerForm d s t m.add
  | .sub d s t => .registerForm d s t m.sub
  | .mult s t => .registerForm 0#5 s t m.mult
  | .multu s t => .registerForm 0#5 s t m.multu
  | .div s t => .registerForm 0#5 s t m.div
  | .divu s t => .registerForm 0#5 s t m.divu
  | .mfhi d => .registerForm d 0#5 0#5 m.mfhi
  | .mflo d => .registerForm d 0#5 0#5 m.mflo
  | .lis d => .registerForm d 0#5 0#5 m.lis
  | .slt d s t => .registerForm d s t m.slt
  | .sltu d s t => .registerForm d s t m.sltu
  | .jr s => .registerForm 0#5 s 0#5 m.jr
  | .jalr s => .registerForm 0#5 s 0#5 m.jalr
  | .beq s t imm => .immediateForm s t m.beq imm
  | .bne s t imm => .immediateForm s t m.bne imm
  | .lw s t imm => .immediateForm s t m.lw imm
  | .sw s t imm => .immediateForm s t m.sw imm

/-- The word of a well-formed instruction has the instruction's descriptor, under every well-formed opcode map. -/
def DescribesAs.Statement (i : Instr) : Prop :=
  ∀ m : OpcodeMap, m.wf = true → i.wf = true → descriptor (encode m i) = descriptorOf m i

theorem descriptor_rWord (s t d : Reg) (f : Code) : descriptor (rWord s t d f) = .registerForm d s t f := by
  simp [descriptor]

theorem descriptor_iWord (m : OpcodeMap) (hm : m.wf = true) (op : IOp) (s t : Reg) (imm : Word)
    (h : immWf imm = true) :
    descriptor (iWord (m.opcode op) s t imm) = .immediateForm s t (m.opcode op) imm := by
  simp [descriptor, (m.wf_iff.1 hm).2.2 op, immField_iWord _ _ _ _ h]

theorem DescribesAs.add (d s t : Reg) : DescribesAs.Statement (.add d s t) := fun _ _ _ => descriptor_rWord ..
theorem DescribesAs.sub (d s t : Reg) : DescribesAs.Statement (.sub d s t) := fun _ _ _ => descriptor_rWord ..
theorem DescribesAs.mult (s t : Reg) : DescribesAs.Statement (.mult s t) := fun _ _ _ => descriptor_rWord ..
theorem DescribesAs.multu (s t : Reg) : DescribesAs.Statement (.multu s t) := fun _ _ _ => descriptor_rWord ..
theorem DescribesAs.div (s t : Reg) : DescribesAs.Statement (.div s t) := fun _ _ _ => descriptor_rWord ..
theorem DescribesAs.divu (s t : Reg) : DescribesAs.Statement (.divu s t) := fun _ _ _ => descriptor_rWord ..
theorem DescribesAs.mfhi (d : Reg) : DescribesAs.Statement (.mfhi d) := fun _ _ _ => descriptor_rWord ..
theorem DescribesAs.mflo (d : Reg) : DescribesAs.Statement (.mflo d) := fun _ _ _ => descriptor_rWord ..
theorem DescribesAs.lis (d : Reg) : DescribesAs.Statement (.lis d) := fun _ _ _ => descriptor_rWord ..
theorem DescribesAs.slt (d s t : Reg) : DescribesAs.Statement (.slt d s t) := fun _ _ _ => descriptor_rWord ..
theorem DescribesAs.sltu (d s t : Reg) : DescribesAs.Statement (.sltu d s t) := fun _ _ _ => descriptor_rWord ..
theorem DescribesAs.jr (s : Reg) : DescribesAs.Statement (.jr s) := fun _ _ _ => descriptor_rWord ..
theorem DescribesAs.jalr (s : Reg) : DescribesAs.Statement (.jalr s) := fun _ _ _ => descriptor_rWord ..

theorem DescribesAs.beq (s t : Reg) (imm : Word) : DescribesAs.Statement (.beq s t imm) :=
  fun m hm h => descriptor_iWord m hm .beq s t imm h
theorem DescribesAs.bne (s t : Reg) (imm : Word) : DescribesAs.Statement (.bne s t imm) :=
  fun m hm h => descriptor_iWord m hm .bne s t imm h
theorem DescribesAs.lw (s t : Reg) (imm : Word) : DescribesAs.Statement (.lw s t imm) :=
  fun m hm h => descriptor_iWord m hm .lw s t imm h
theorem DescribesAs.sw (s t : Reg) (imm : Word) : DescribesAs.Statement (.sw s t imm) :=
  fun m hm h => descriptor_iWord m hm .sw s t imm h

end Sys2Proof.Laws
end

