-- ==== Sys2Proof/Machine/Assembly.lean ====
section
/-! DEFINITION. The assembler text of an instruction, and the words of the assembler's directives (R118, R119).
Presentation only: no step reads it. -/

namespace Sys2Proof.Machine

/-- `$n` (R20, R31). -/
def regText (r : Reg) : String := "$" ++ toString r.toNat

/-- An immediate in decimal (R118). -/
def immText (imm : Word) : String := toString imm.toInt

/-- `op $a, $b, $c` (R118). -/
def threeRegText (op : String) (a b c : Reg) : String :=
  op ++ " " ++ regText a ++ ", " ++ regText b ++ ", " ++ regText c

/-- `op $a, $b` (R118). -/
def twoRegText (op : String) (a b : Reg) : String := op ++ " " ++ regText a ++ ", " ++ regText b

/-- `op $a` (R118). -/
def oneRegText (op : String) (a : Reg) : String := op ++ " " ++ regText a

/-- `op $s, $t, i` (R118). -/
def branchText (op : String) (s t : Reg) (imm : Word) : String := twoRegText op s t ++ ", " ++ immText imm

/-- `op $t, i($s)` (R118). -/
def memText (op : String) (s t : Reg) (imm : Word) : String :=
  oneRegText op t ++ ", " ++ immText imm ++ "(" ++ regText s ++ ")"

/-- The assembler text of an instruction (R118). -/
def asmText : Instr → String
  | .add d s t => threeRegText "add" d s t
  | .sub d s t => threeRegText "sub" d s t
  | .mult s t => twoRegText "mult" s t
  | .multu s t => twoRegText "multu" s t
  | .div s t => twoRegText "div" s t
  | .divu s t => twoRegText "divu" s t
  | .mfhi d => oneRegText "mfhi" d
  | .mflo d => oneRegText "mflo" d
  | .lis d => oneRegText "lis" d
  | .slt d s t => threeRegText "slt" d s t
  | .sltu d s t => threeRegText "sltu" d s t
  | .jr s => oneRegText "jr" s
  | .jalr s => oneRegText "jalr" s
  | .beq s t imm => branchText "beq" s t imm
  | .bne s t imm => branchText "bne" s t imm
  | .lw s t imm => memText "lw" s t imm
  | .sw s t imm => memText "sw" s t imm

/-- The immediate of a branch at `branch` to a label: `(label - (branch + 4)) / 4` (R119). -/
def labelImm (label branch : Word) : Word := (label - (branch + 4#32)).sshiftRight 2

end Sys2Proof.Machine
end

