-- ==== Sys2Proof/Tests/Slice0.lean ====
section
/-! SUPPORT. Tests: expected results come from the spec's rules, its worked examples and the vectors of
95_test_vectors.md. Then a witness for the hypotheses of every statement that has any. -/

namespace Sys2Proof.Tests

open Sys2Proof.Machine

/-! ### Helpers -/

/-- A word at an address, pc there, and registers written, from creation with `hi` and `lo` as the vectors have them. -/
def place (a w : Word) (rs : List (Reg × Word)) : State :=
  rs.foldl (fun s rv => s.writeReg rv.1 rv.2)
    (((State.reset.setPc a).setHiLo 0x11111111#32 0x22222222#32).memWrite a w)

/-- The same machine with another memory capacity in words. -/
def withWords (n : Nat) (s : State) : State := { s with cfg := { s.cfg with memWords := n } }

/-- The state of an outcome that continues. -/
def nextOf : Result → Option State
  | .next s => some s
  | _ => none

/-- The terminal status of an outcome that stops, with the pc it leaves. -/
def stopOf : Result → Option (Status × Word)
  | .fault f => some (f.status, f.final.pc)
  | _ => none

/-- The fault of an outcome that stops. -/
def faultOf : Result → Option Fault
  | .fault f => some f
  | _ => none

theorem next_of {o : Result} {s : State} (h : nextOf o = some s) : o = .next s := by
  cases o <;> simp_all [nextOf]

theorem fault_of {o : Result} {f : Fault} (h : faultOf o = some f) : o = .fault f := by
  cases o <;> simp_all [faultOf]

/-- A register and pc after an outcome that continues. -/
def regPc (r : Reg) (o : Result) : Option (Word × Word) := (nextOf o).map fun s => (s.readReg r, s.pc)

/-- `hi` and `lo` after an outcome that continues. -/
def hiLo (o : Result) : Option (Word × Word) := (nextOf o).map fun s => (s.hi, s.lo)

/-- pc after an outcome that continues. -/
def pcOf (o : Result) : Option Word := (nextOf o).map State.pc

/-! ### WellFormed: an ill-formed term for each check -/

theorem test_wf_imm_too_large : (Instr.beq 1#5 2#5 32768#32).wf = false := by decide
theorem test_wf_imm_too_small : (Instr.lw 1#5 2#5 (-32769#32)).wf = false := by decide
theorem test_wf_imm_bne : (Instr.bne 1#5 2#5 0x0000FFFF#32).wf = false := by decide
theorem test_wf_imm_sw : (Instr.sw 1#5 2#5 0x7FFFFFFF#32).wf = false := by decide
theorem test_wf_map_same_funct : (({ OpcodeMap.default with sub := 0x20#6 } : OpcodeMap).wf) = false := by decide
theorem test_wf_map_same_opcode : (({ OpcodeMap.default with bne := 0x04#6 } : OpcodeMap).wf) = false := by decide
theorem test_wf_map_opcode_zero : (({ OpcodeMap.default with sw := 0#6 } : OpcodeMap).wf) = false := by decide
theorem test_wf_config_no_words : (({ Config.default with memWords := 0 } : Config).wf) = false := by decide
theorem test_wf_config_too_many_words : (({ Config.default with memWords := 2 ^ 30 + 1 } : Config).wf) = false := by
  decide
theorem test_wf_config_halt_misaligned : (({ Config.default with haltAddr := 2#32 } : Config).wf) = false := by decide
theorem test_wf_config_same_mmio :
    (({ Config.default with mmioInAddr := 0xFFFF000C#32 } : Config).wf) = false := by decide
theorem test_wf_config_bad_map :
    (({ Config.default with opcodes := { OpcodeMap.default with lis := 0x20#6 } } : Config).wf) = false := by decide

/-! ### Decode: a word of every constructor, bit by bit from R101 and R113 (opcode s t d shamt funct, or opcode s t imm) -/

theorem test_decode_add : decodeTableWord 32 0b000000_00010_00011_00001_00000_100000 = some (.add 1#5 2#5 3#5) := by decide
theorem test_decode_sub : decodeTableWord 32 0b000000_00001_00010_00011_00000_100010 = some (.sub 3#5 1#5 2#5) := by decide
theorem test_decode_mult : decodeTableWord 32 0b000000_00100_00101_00000_00000_011000 = some (.mult 4#5 5#5) := by decide
theorem test_decode_multu : decodeTableWord 32 0b000000_00100_00101_00000_00000_011001 = some (.multu 4#5 5#5) := by decide
theorem test_decode_div : decodeTableWord 32 0b000000_00110_00111_00000_00000_011010 = some (.div 6#5 7#5) := by decide
theorem test_decode_divu : decodeTableWord 32 0b000000_00110_00111_00000_00000_011011 = some (.divu 6#5 7#5) := by decide
theorem test_decode_mfhi : decodeTableWord 32 0b000000_00000_00000_01000_00000_010000 = some (.mfhi 8#5) := by decide
theorem test_decode_mflo : decodeTableWord 32 0b000000_00000_00000_01001_00000_010010 = some (.mflo 9#5) := by decide
theorem test_decode_lis : decodeTableWord 32 0b000000_00000_00000_01010_00000_010100 = some (.lis 10#5) := by decide
theorem test_decode_slt : decodeTableWord 32 0b000000_01100_01101_01011_00000_101010 = some (.slt 11#5 12#5 13#5) := by decide
theorem test_decode_sltu : decodeTableWord 32 0b000000_01100_01101_01011_00000_101011 = some (.sltu 11#5 12#5 13#5) := by decide
theorem test_decode_jr : decodeTableWord 32 0b000000_11111_00000_00000_00000_001000 = some (.jr 31#5) := by decide
theorem test_decode_jalr : decodeTableWord 32 0b000000_00101_00000_00000_00000_001001 = some (.jalr 5#5) := by decide
theorem test_decode_beq :
    decodeTableWord 32 0b000100_00001_00010_1111111111111101 = some (.beq 1#5 2#5 (-3#32)) := by decide
theorem test_decode_bne :
    decodeTableWord 32 0b000101_00001_00000_0000000000000010 = some (.bne 1#5 0#5 2#32) := by decide
theorem test_decode_lw :
    decodeTableWord 32 0b100011_10010_10001_1111111111101000 = some (.lw 18#5 17#5 (-24#32)) := by decide
theorem test_decode_sw :
    decodeTableWord 32 0b101011_11101_00010_0000000000001000 = some (.sw 29#5 2#5 8#32) := by decide

/-- The words of 95_test_vectors.md 2.6 that are no instruction. -/
theorem test_decode_invalid :
    [0x00000000, 0x0000000C, 0x0000000D, 0x00000021, 0x08000000, 0x20010005, 0xFFFFFFFF].map (decodeTableWord 32) =
      List.replicate 7 none := by decide

/-- 95_test_vectors.md 2.1: the descriptor of the word of all ones. -/
theorem test_descriptor_all_ones :
    descriptor 0xFFFFFFFF#32 = .immediateForm 31#5 31#5 0x3F#6 (-1#32) := by decide

/-- The source's word S5, and the encoder's ignored fields. -/
theorem test_encode :
    encode OpcodeMap.default (.lw 18#5 17#5 (-24#32)) = 0x8E51FFE8#32 ∧
    encode OpcodeMap.default (.jalr 5#5) = 0x00A00009#32 ∧ encode OpcodeMap.default (.mflo 9#5) = 0x00004812#32 := by
  decide

/-! ### ALU (95_test_vectors.md 2.2) -/

theorem test_add_example :
    regPc 1#5 (step (place 0#32 0x00430820#32 [(2#5, 5#32), (3#5, 7#32)])) = some (0xC#32, 4#32) := by decide
theorem test_add_source_is_destination :
    regPc 4#5 (step (place 0#32 0x00842020#32 [(4#5, 0x40000001#32)])) = some (0x80000002#32, 4#32) := by decide
theorem test_add_to_zero :
    regPc 0#5 (step (place 0#32 0x00430020#32 [(2#5, 5#32), (3#5, 7#32)])) = some (0#32, 4#32) := by decide
theorem test_sub_example :
    regPc 3#5 (step (place 0#32 0x00221822#32 [(1#5, 5#32), (2#5, 7#32)])) = some (0xFFFFFFFE#32, 4#32) := by decide
theorem test_slt_negative :
    regPc 11#5 (step (place 0#32 0x018D582A#32 [(12#5, 0x80000000#32), (13#5, 0x7FFFFFFF#32)])) =
      some (1#32, 4#32) := by decide
theorem test_sltu_large :
    regPc 11#5 (step (place 0#32 0x018D582B#32 [(12#5, 0xFFFFFFFF#32), (13#5, 1#32)])) = some (0#32, 4#32) := by decide
theorem test_mult_negative :
    hiLo (step (place 0#32 0x00850018#32 [(4#5, 0xFFFFFFFF#32), (5#5, 2#32)])) =
      some (0xFFFFFFFF#32, 0xFFFFFFFE#32) := by decide
theorem test_mult_minimum :
    hiLo (step (place 0#32 0x00850018#32 [(4#5, 0x80000000#32), (5#5, 0x80000000#32)])) =
      some (0x40000000#32, 0#32) := by decide
theorem test_multu_large :
    hiLo (step (place 0#32 0x00850019#32 [(4#5, 0xFFFFFFFF#32), (5#5, 0xFFFFFFFF#32)])) =
      some (0xFFFFFFFE#32, 1#32) := by decide
theorem test_div_negative_dividend :
    hiLo (step (place 0#32 0x00C7001A#32 [(6#5, 0xFFFFFFF9#32), (7#5, 2#32)])) =
      some (0xFFFFFFFF#32, 0xFFFFFFFD#32) := by decide
theorem test_div_negative_divisor :
    hiLo (step (place 0#32 0x00C7001A#32 [(6#5, 7#32), (7#5, 0xFFFFFFFE#32)])) = some (1#32, 0xFFFFFFFD#32) := by decide
theorem test_div_minimum_by_one :
    hiLo (step (place 0#32 0x00C7001A#32 [(6#5, 0x80000000#32), (7#5, 1#32)])) = some (0#32, 0x80000000#32) := by decide
theorem test_div_overflow :
    stopOf (step (place 0#32 0x00C7001A#32 [(6#5, 0x80000000#32), (7#5, 0xFFFFFFFF#32)])) =
      some (.invalidInstruction 0#32, 4#32) := by decide
theorem test_div_by_zero :
    stopOf (step (place 0#32 0x00C7001A#32 [(6#5, 5#32)])) = some (.invalidInstruction 0#32, 4#32) := by decide
theorem test_divu_example :
    hiLo (step (place 0#32 0x00C7001B#32 [(6#5, 0xFFFFFFF9#32), (7#5, 2#32)])) = some (1#32, 0x7FFFFFFC#32) := by decide
theorem test_divu_no_overflow :
    hiLo (step (place 0#32 0x00C7001B#32 [(6#5, 0x80000000#32), (7#5, 0xFFFFFFFF#32)])) =
      some (0x80000000#32, 0#32) := by decide
theorem test_divu_by_zero :
    stopOf (step (place 0#32 0x00C7001B#32 [(6#5, 5#32)])) = some (.invalidInstruction 0#32, 4#32) := by decide
theorem test_mfhi : regPc 8#5 (step (place 0#32 0x00004010#32 [])) = some (0x11111111#32, 4#32) := by decide
theorem test_mflo : regPc 9#5 (step (place 0#32 0x00004812#32 [])) = some (0x22222222#32, 4#32) := by decide

/-! ### Branches and jumps (95_test_vectors.md 2.3) -/

theorem test_jr : pcOf (step (place 0x10#32 0x00A00008#32 [(5#5, 0x41#32)])) = some 0x41#32 := by decide
theorem test_jalr :
    regPc 31#5 (step (place 0x10#32 0x00A00009#32 [(5#5, 0x40#32)])) = some (0x14#32, 0x40#32) := by decide
theorem test_jalr_own_link :
    regPc 31#5 (step (place 0x10#32 0x03E00009#32 [(31#5, 0x80#32)])) = some (0x14#32, 0x80#32) := by decide
theorem test_beq_taken :
    pcOf (step (place 0x10#32 0x1022FFFD#32 [(1#5, 9#32), (2#5, 9#32)])) = some 8#32 := by decide
theorem test_beq_not_taken :
    pcOf (step (place 0x10#32 0x1022FFFD#32 [(1#5, 9#32), (2#5, 8#32)])) = some 0x14#32 := by decide
theorem test_beq_wraps : pcOf (step (place 0#32 0x10008000#32 [])) = some 0xFFFE0004#32 := by decide
theorem test_bne_taken : pcOf (step (place 0#32 0x14200002#32 [(1#5, 1#32)])) = some 0xC#32 := by decide
theorem test_bne_not_taken : pcOf (step (place 0#32 0x14200002#32 [])) = some 4#32 := by decide

/-! ### Loads, stores and lis (95_test_vectors.md 2.4) -/

theorem test_lis :
    regPc 10#5 (step ((place 0#32 0x00005014#32 []).memWrite 4#32 0x12345678#32)) = some (0x12345678#32, 8#32) := by
  decide
theorem test_lis_last_word :
    stopOf (step (withWords 4 (place 0xC#32 0x00000814#32 []))) =
      some (.outOfRangeMemoryAccess 0x10#32, 0x10#32) := by decide
theorem test_lw_base_overwritten :
    regPc 3#5 (step ((place 0#32 0x8C630000#32 [(3#5, 8#32)]).memWrite 8#32 0x99#32)) = some (0x99#32, 4#32) := by decide
theorem test_lw_negative_offset :
    regPc 17#5 (step ((place 0#32 0x8E51FFE8#32 [(18#5, 0x100#32)]).memWrite 0xE8#32 0xA5A5A5A5#32)) =
      some (0xA5A5A5A5#32, 4#32) := by decide
theorem test_lw_range_before_alignment :
    stopOf (step (withWords 4 (place 0#32 0x8C030011#32 []))) =
      some (.outOfRangeMemoryAccess 0x11#32, 4#32) := by decide
theorem test_lw_unaligned_in_last_word :
    stopOf (step (withWords 4 (place 0#32 0x8C03000E#32 []))) =
      some (.unalignedMemoryAccess 0xE#32, 4#32) := by decide
theorem test_sw :
    (nextOf (step (place 0#32 0xAFA20008#32 [(29#5, 0x100#32), (2#5, 0xCAFEF00D#32)]))).map
      (fun s => (s.mem.readWord 0x42, s.mem.readByte 0x108)) = some (0xCAFEF00D#32, 0xCA#8) := by decide
theorem test_sw_unaligned :
    stopOf (step (place 0#32 0xAFA20001#32 [(29#5, 0x100#32)])) =
      some (.unalignedMemoryAccess 0x101#32, 4#32) := by decide
theorem test_sw_out_of_range :
    stopOf (step (place 0#32 0xAFA20000#32 [(29#5, 0x01000000#32)])) =
      some (.outOfRangeMemoryAccess 0x01000000#32, 4#32) := by decide

/-! ### Character I/O (95_test_vectors.md 2.5) -/

theorem test_input_byte :
    (nextOf (step ((place 0#32 0x8C230000#32 [(1#5, 0xFFFF0004#32)]).withInput [0xFF#8]))).map
      (fun s => (s.readReg 3#5, s.input)) = some (0xFF#32, []) := by decide
theorem test_input_empty :
    regPc 3#5 (step (place 0#32 0x8C230000#32 [(1#5, 0xFFFF0004#32), (3#5, 0x55#32)])) =
      some (0x55#32, 4#32) := by decide
theorem test_input_to_zero_consumes :
    (nextOf (step ((place 0#32 0x8C200000#32 [(1#5, 0xFFFF0004#32)]).withInput [0x5A#8]))).map
      (fun s => (s.readReg 0#5, s.input)) = some (0#32, []) := by decide
theorem test_output_byte :
    (nextOf (step (place 0#32 0xAC230000#32 [(1#5, 0xFFFF000C#32), (3#5, 0x12345648#32)]))).map
      (fun s => (s.output, s.mem.length)) = some ([0x48#8], 2) := by decide
theorem test_load_from_output_address :
    stopOf (step (place 0#32 0x8C230000#32 [(1#5, 0xFFFF000C#32)])) =
      some (.outOfRangeMemoryAccess 0xFFFF000C#32, 4#32) := by decide
theorem test_store_to_input_address :
    stopOf (step (place 0#32 0xAC230000#32 [(1#5, 0xFFFF0004#32)])) =
      some (.outOfRangeMemoryAccess 0xFFFF0004#32, 4#32) := by decide
theorem test_near_miss_address :
    stopOf (step (place 0#32 0x8C230001#32 [(1#5, 0xFFFF0004#32)])) =
      some (.outOfRangeMemoryAccess 0xFFFF0005#32, 4#32) := by decide

/-! ### Fetch, halt and invalid dispatch (95_test_vectors.md 2.6) -/

theorem test_fetch_unaligned :
    step (State.reset.setPc 2#32) = .fault (.unalignedInstructionFetch 2#32 (State.reset.setPc 2#32)) := by rfl
theorem test_halt : stopOf (step (State.reset.setPc 0x8123456C#32)) = some (.halted 0x8123456C#32, 0x8123456C#32) := by
  decide
theorem test_fetch_out_of_range :
    stopOf (step (State.reset.setPc 0x01000000#32)) =
      some (.outOfRangeInstructionFetch 0x01000000#32, 0x01000000#32) := by decide
theorem test_invalid_word :
    stopOf (step (place 0x10#32 0x00000021#32 [])) = some (.invalidInstruction 0x10#32, 0x14#32) := by decide
theorem test_zeroed_memory_is_invalid : stopOf (step State.reset) = some (.invalidInstruction 0#32, 4#32) := by decide
theorem test_withFetchWord :
    regPc 8#5 (step (State.reset.withFetchWord 32 0x00004010)) = some (0#32, 4#32) := by decide

/-! ### Creation and loading -/

/-- The configuration of a small machine: 4 words of storage and the image at word 3. -/
def smallCfg : Config := { Config.default with memWords := 4, loadWord := 3 }

/-- R74 on the source's two example words: each word most significant byte first, in address order. -/
theorem test_dump :
    ((State.reset.memWrite 0#32 0x00430820#32).memWrite 4#32 0x8E51FFE8#32).dump 0 2 =
      [0x00#8, 0x43#8, 0x08#8, 0x20#8, 0x8E#8, 0x51#8, 0xFF#8, 0xE8#8] := by decide

/-- R342 to R344 on a small machine: the image's one word at the last word of storage. -/
theorem test_launch :
    (launch 16 smallCfg [] [0x03#8, 0xE0#8, 0x00#8, 0x08#8]).toOption.map
      (fun s => (s.mem.readWord 3, s.readReg 31#5, s.pc, s.cfg.memWords)) =
      some (0x03E00008#32, 0x8123456C#32, 0xC#32, 4) := by decide

/-- P0 of Part 3: `jr $31` at the entry point halts on the next step. -/
theorem test_halt_convergence :
    ((launch 0 Config.default [] [0x03#8, 0xE0#8, 0x00#8, 0x08#8]).toOption.bind (stepLoop 2)).map
      (fun r => (r.status, r.state.pc)) = some (.halted 0x8123456C#32, 0x8123456C#32) := by decide

theorem test_status_codes :
    [Status.continuing 0#32, .halted 0#32, .unalignedInstructionFetch 0#32, .outOfRangeInstructionFetch 0#32,
      .unalignedMemoryAccess 0#32, .outOfRangeMemoryAccess 0#32, .invalidInstruction 0#32].map Status.code =
      [0, 1, 2, 3, 4, 5, 6] := by decide

/-- The source's rendered examples S6 and S7, and the branch of R119. -/
theorem test_assembly :
    asmText (.lw 18#5 17#5 (-24#32)) = "lw $17, -24($18)" ∧ asmText (.add 1#5 2#5 3#5) = "add $1, $2, $3" ∧
    asmText (.jr 31#5) = "jr $31" ∧ labelImm 0x14#32 0x1C#32 = -3#32 := ⟨by rfl, by rfl, by rfl, by decide⟩

/-! ### Witnesses: a state and operands that meet the hypotheses of each statement -/

/-- A legal machine about to run `add $1, $2, $3`. -/
def legal : State := ((State.reset.memWrite 0#32 0x00430820#32).writeReg 2#5 5#32).writeReg 3#5 7#32

theorem legal_inv : legal.Inv := ⟨by decide, by decide, by decide, by decide⟩

/-- A legal machine about to run `sw $2, 8($29)`. -/
def storing : State := ((State.reset.memWrite 0#32 0xAFA20008#32).writeReg 29#5 0x100#32).writeReg 2#5 0x00004010#32

theorem storing_inv : storing.Inv := ⟨by decide, by decide, by decide, by decide⟩

/-- The machine after that store. -/
def stored : State := (storing.advance.memWrite 0x108#32 0x00004010#32).writeReg 0#5 0#32

theorem witness_UnlistedEncodingIsInvalid :
    State.reset.cfg.opcodes = OpcodeMap.default ∧ fetchOk State.reset = true ∧
    ∀ row ∈ tableRows, State.reset.memRead State.reset.pc &&& row.1 ≠ row.2 := by
  have pc : State.reset.pc = 0#32 := rfl
  have zero : State.reset.memRead 0#32 = 0#32 := by decide
  exact ⟨rfl, by decide, by simp [tableRows, pc, zero]⟩

theorem witness_IgnoredBitsDoNotMatter :
    decode OpcodeMap.default 0x00430820#32 = .ok (.add 1#5 2#5 3#5) ∧
    (0x00430FE0#32 ^^^ 0x00430820#32) &&& careMask (.add 1#5 2#5 3#5) = 0#32 := by decide

theorem witness_EncodedInstructionDecodesBack :
    OpcodeMap.default.wf = true ∧ (Instr.beq 31#5 0#5 (-32768#32)).wf = true ∧
    (Instr.sw 0#5 31#5 32767#32).wf = true := by decide

theorem witness_DecodedWordEncodesBack : decode OpcodeMap.default 0x8E51FFE8#32 = .ok (.lw 18#5 17#5 (-24#32)) := by
  decide

theorem witness_CreationZeroesEverything :
    (4 % 4 = 0 ∧ 4 ≤ 4294967296) ∧ (4294967296 % 4 = 0 ∧ 4294967296 ≤ 4294967296) ∧
    Config.default.haltAddr.toNat % 4 = 0 ∧ Config.default.mmioOutAddr ≠ Config.default.mmioInAddr ∧
    Config.default.opcodes.wf = true := by decide

theorem witness_creation_answers : create 0 Config.default [] = .ok State.reset := by decide

theorem witness_IllegalCapacityRefused : 6 % 4 ≠ 0 ∧ 4294967296 < 4294967300 := by decide

/-- Each clause of IllegalParameterRefused: the sentinel, the MMIO addresses, and the three ways of an illegal map. -/
theorem witness_IllegalParameterRefused :
    4 % 4 = 0 ∧ (2#32).toNat % 4 ≠ 0 ∧
    ({ Config.default with mmioInAddr := 0xFFFF000C#32 } : Config).mmioOutAddr = 0xFFFF000C#32 ∧
    ROp.add ≠ ROp.sub ∧
    ({ OpcodeMap.default with sub := 0x20#6 } : OpcodeMap).funct .add =
      ({ OpcodeMap.default with sub := 0x20#6 } : OpcodeMap).funct .sub ∧
    IOp.beq ≠ IOp.bne ∧
    ({ OpcodeMap.default with bne := 0x04#6 } : OpcodeMap).opcode .beq =
      ({ OpcodeMap.default with bne := 0x04#6 } : OpcodeMap).opcode .bne ∧
    ({ OpcodeMap.default with sw := 0#6 } : OpcodeMap).opcode .sw = 0#6 := by decide

theorem witness_LaunchState :
    create 16 smallCfg [] = .ok { State.reset with cfg := smallCfg } ∧
    [0x03#8, 0xE0#8, 0x00#8, 0x08#8].length = 4 * 1 ∧ smallCfg.loadWord + 1 ≤ smallCfg.memWords ∧
    [0x03#8].length % 4 ≠ 0 := by decide

theorem witness_TooLargeImageFails :
    create 16 smallCfg [] = .ok { State.reset with cfg := smallCfg } ∧ (List.replicate 8 0#8).length = 4 * 2 ∧
    smallCfg.memWords < smallCfg.loadWord + 2 := by decide

theorem witness_LaunchedMachineIsLegal :
    launch 0 Config.default [] [] = .ok (State.reset.writeReg 31#5 0x8123456C#32) := by decide

theorem witness_StepRunsDecodedInstruction :
    fetchOk legal = true ∧ decode legal.cfg.opcodes (legal.memRead legal.pc) = .ok (.add 1#5 2#5 3#5) ∧
    fetchOk State.reset = true ∧
    decode State.reset.cfg.opcodes (State.reset.memRead State.reset.pc) = .error (.rtab 0#6) := by decide

theorem witness_fault_of_fetch_and_of_handler :
    step (State.reset.setPc 2#32) = .fault (.unalignedInstructionFetch 2#32 (State.reset.setPc 2#32)) ∧
    step State.reset = .fault (.invalidInstruction 0#32 State.reset.advance) :=
  ⟨fault_of (by decide), fault_of (by decide)⟩

theorem witness_StepKeepsMachineLegal :
    storing.Inv ∧ step storing = .next stored ∧
    State.reset.Inv ∧ step State.reset = .fault (.invalidInstruction 0#32 State.reset.advance) :=
  ⟨storing_inv, next_of (by decide), ⟨by decide, by decide, by decide, by decide⟩, fault_of (by decide)⟩

/-- The state that `legal` reaches in one step. -/
def added : State := legal.advance.writeReg 1#5 12#32

theorem witness_step_and_frame :
    legal.pc.toNat % 4 = 0 ∧ isRegisterJump (.add 1#5 2#5 3#5) = false ∧ isMulDiv (.add 1#5 2#5 3#5) = false ∧
    isMoveFrom (.add 1#5 2#5 3#5) = false ∧ exec (.add 1#5 2#5 3#5) legal = .next added ∧ (2#5 : Reg) ≠ 0#5 ∧
    writtenReg (.add 1#5 2#5 3#5) ≠ some 2#5 ∧ writesMemory (.add 1#5 2#5 3#5) legal = false ∧
    writesOutput (.add 1#5 2#5 3#5) legal = false ∧ readsInput (.add 1#5 2#5 3#5) legal = false :=
  ⟨by decide, by decide, by decide, by decide, next_of (by decide), by decide, by decide, by decide, by decide, by decide⟩

theorem witness_multiply_and_divide_complete :
    isMulDiv (.mult 2#5 3#5) = true ∧
    exec (.mult 2#5 3#5) legal = .next (legal.advance.setHiLo 0#32 35#32) ∧
    isMulDiv (.div 3#5 2#5) = true ∧ exec (.div 3#5 2#5) legal = .next (legal.advance.setHiLo 2#32 1#32) :=
  ⟨by decide, next_of (by decide), by decide, next_of (by decide)⟩

theorem witness_multu_completes : exec (.multu 2#5 3#5) legal = .next (legal.advance.setHiLo 0#32 35#32) :=
  next_of (by decide)

theorem witness_misaligned_pc : (State.reset.setPc 2#32).pc.toNat % 4 ≠ 0 := by decide

theorem witness_InputSeenOnlyByPolling (i : Instr) (h : Runs legal i) : readsInput i legal = false := by
  have e : decode legal.cfg.opcodes (legal.memRead legal.pc) = .ok (.add 1#5 2#5 3#5) := by decide
  obtain ⟨-, h⟩ := h
  rw [e] at h
  cases h
  rfl

/-- Each clause of DivideSigned and DivideUnsigned at a boundary: divisor 0, the overflow pair, and its neighbours. -/
theorem witness_divide_clauses :
    (place 0#32 0#32 []).readReg 7#5 = 0#32 ∧
    (place 0#32 0#32 [(6#5, 0x80000000#32), (7#5, 0xFFFFFFFF#32)]).readReg 6#5 = 0x80000000#32 ∧
    (place 0#32 0#32 [(6#5, 0x80000000#32), (7#5, 0xFFFFFFFF#32)]).readReg 7#5 = 0xFFFFFFFF#32 ∧
    ¬ ((place 0#32 0#32 [(6#5, 0x80000001#32), (7#5, 0xFFFFFFFF#32)]).readReg 6#5 = 0x80000000#32 ∧
      (place 0#32 0#32 [(6#5, 0x80000001#32), (7#5, 0xFFFFFFFF#32)]).readReg 7#5 = 0xFFFFFFFF#32) ∧
    (place 0#32 0#32 [(6#5, 0x80000001#32), (7#5, 0xFFFFFFFF#32)]).readReg 7#5 ≠ 0#32 := by decide

/-- Each clause of JumpRegister on its target: misaligned, the sentinel, the first word beyond storage. -/
theorem witness_jump_targets :
    (0x41#32).toNat % 4 ≠ 0 ∧ (0x8123456C#32).toNat % 4 = 0 ∧ 0x8123456C#32 = Config.default.haltAddr ∧
    (0x01000000#32).toNat % 4 = 0 ∧ 0x01000000#32 ≠ Config.default.haltAddr ∧
    Config.default.memWords ≤ (0x01000000#32).toNat / 4 := by decide

/-- Each clause of LoadImmediateSuccessor at the end of storage: the last inline word inside and the first outside. -/
theorem witness_lis_clauses :
    ((withWords 4 (place 8#32 0#32 [])).pc + 4#32).toNat / 4 < (withWords 4 (place 8#32 0#32 [])).cfg.memWords ∧
    (withWords 4 (place 0xC#32 0#32 [])).cfg.memWords ≤ ((withWords 4 (place 0xC#32 0#32 [])).pc + 4#32).toNat / 4 := by
  decide

/-- A machine of 4 words, with a canonical memory and one byte of input. -/
def small : State := (withWords 4 (place 0#32 0#32 [(1#5, 0xFFFF0004#32), (2#5, 0xFFFF000C#32)])).withInput [0x41#8]

/-- Each clause of LoadWord and StoreWord: the MMIO addresses, the first address beyond storage, a misaligned address in
the last word, and the last word. -/
theorem witness_load_store_clauses :
    small.mem.wf ∧ effectiveAddress small 1#5 0#32 = small.cfg.mmioInAddr ∧ small.input = 0x41#8 :: [] ∧
    (small.withInput []).input = [] ∧ effectiveAddress small 2#5 0#32 = small.cfg.mmioOutAddr ∧
    effectiveAddress small 0#5 0x10#32 ≠ small.cfg.mmioInAddr ∧
    effectiveAddress small 0#5 0x10#32 ≠ small.cfg.mmioOutAddr ∧
    small.cfg.memWords ≤ (effectiveAddress small 0#5 0x10#32).toNat / 4 ∧
    (effectiveAddress small 0#5 0xE#32).toNat / 4 < small.cfg.memWords ∧
    (effectiveAddress small 0#5 0xE#32).toNat % 4 ≠ 0 ∧
    effectiveAddress small 0#5 0xE#32 ≠ small.cfg.mmioInAddr ∧
    effectiveAddress small 0#5 0xE#32 ≠ small.cfg.mmioOutAddr ∧
    (effectiveAddress small 0#5 0xC#32).toNat / 4 < small.cfg.memWords ∧
    (effectiveAddress small 0#5 0xC#32).toNat % 4 = 0 ∧
    effectiveAddress small 0#5 0xC#32 ≠ small.cfg.mmioInAddr ∧
    effectiveAddress small 0#5 0xC#32 ≠ small.cfg.mmioOutAddr := by decide

/-- OtherMmioAccessesAreOrdinary: a `lw` from the output address, a `sw` to the input address, and a fetch and a `lis`
read at either. -/
theorem witness_OtherMmioAccessesAreOrdinary :
    small.cfg.mmioOutAddr ≠ small.cfg.mmioInAddr ∧ small.readReg 2#5 + 0#32 = small.cfg.mmioOutAddr ∧
    small.cfg.memWords ≤ small.cfg.mmioOutAddr.toNat / 4 ∧ small.readReg 1#5 + 0#32 = small.cfg.mmioInAddr ∧
    small.cfg.memWords ≤ small.cfg.mmioInAddr.toNat / 4 ∧
    (small.setPc 0xFFFF0000#32).pc + 4#32 = small.cfg.mmioInAddr ∧
    (small.setPc 0xFFFF0004#32).pc = small.cfg.mmioInAddr ∧ small.cfg.mmioInAddr.toNat % 4 = 0 ∧
    small.cfg.mmioInAddr ≠ small.cfg.haltAddr := by decide

/-- OtherMmioAccessesAreOrdinary where storage backs the whole address space, aligned and misaligned. -/
theorem witness_OtherMmioAccessesInStorage :
    (withWords (2 ^ 30) small).mem.wf ∧
    small.cfg.mmioOutAddr.toNat / 4 < (withWords (2 ^ 30) small).cfg.memWords ∧
    small.cfg.mmioInAddr.toNat / 4 < (withWords (2 ^ 30) small).cfg.memWords ∧
    small.cfg.mmioOutAddr.toNat % 4 = 0 ∧ small.cfg.mmioInAddr.toNat % 4 = 0 ∧
    (0xFFFF000D#32).toNat / 4 < (withWords (2 ^ 30) small).cfg.memWords ∧ (0xFFFF000D#32).toNat % 4 ≠ 0 := by decide

/-- DumpIsBigEndianAndReturnsImage: an image of one word that is loaded. -/
theorem witness_DumpIsBigEndianAndReturnsImage :
    [0x03#8, 0xE0#8, 0x00#8, 0x08#8].length = 4 * 1 ∧
    (launch 16 smallCfg [] [0x03#8, 0xE0#8, 0x00#8, 0x08#8]).isOk = true := by decide

/-- The ends of the range of ConditionalBranches, and the 16-bit offsets that reach them. -/
theorem witness_branch_reach :
    (-131072 : Int) % 4 = 0 ∧ (131068 : Int) % 4 = 0 ∧
    4#32 * (0x8000#16).signExtend 32 = BitVec.ofInt 32 (-131072) ∧
    4#32 * (0x7FFF#16).signExtend 32 = BitVec.ofInt 32 131068 := by decide

/-- LoadReturnsLastStore, for the stored word and for another, and StoreSeenByFetchAndLis, for a fetch and a `lis`: all
from the memory that the store left. -/
theorem witness_after_store :
    storing.mem.wf ∧ effectiveAddress storing 29#5 8#32 ≠ storing.cfg.mmioOutAddr ∧
    exec (.sw 29#5 2#5 8#32) storing = .next stored ∧
    effectiveAddress stored 29#5 8#32 ≠ stored.cfg.mmioInAddr ∧
    (effectiveAddress stored 29#5 8#32).toNat / 4 < stored.cfg.memWords ∧
    (effectiveAddress stored 29#5 8#32).toNat % 4 = 0 ∧
    effectiveAddress stored 29#5 8#32 = effectiveAddress storing 29#5 8#32 ∧
    effectiveAddress stored 29#5 12#32 ≠ effectiveAddress storing 29#5 8#32 ∧
    (stored.setPc 0x108#32).pc = effectiveAddress storing 29#5 8#32 ∧
    (stored.setPc 0x108#32).pc ≠ stored.cfg.haltAddr ∧
    decode storing.cfg.opcodes (storing.readReg 2#5) = .ok (.mfhi 8#5) ∧
    decode storing.cfg.opcodes ((storing.writeReg 2#5 0#32).readReg 2#5) = .error (.rtab 0#6) ∧
    (stored.setPc 0x104#32).pc + 4#32 = effectiveAddress storing 29#5 8#32 :=
  ⟨by decide, by decide, next_of (by decide), by decide, by decide, by decide, by decide, by decide, by decide, by decide,
    by decide, by decide, by decide⟩

/-- StepLoopReturnsFirstStop: one step that continues and one that stops. -/
theorem witness_StepLoopReturnsFirstStop :
    Continues 1 legal added ∧ step added = .fault (.invalidInstruction 4#32 added.advance) :=
  ⟨.succ 0 legal added added (next_of (by decide)) (.zero added), fault_of (by decide)⟩

theorem witness_TerminalStatusIsFinal :
    (Run.mk State.reset (.halted 0#32)).status.terminal = true ∧ (Run.start legal).status.terminal = false := by decide

end Sys2Proof.Tests
end

/-! # Scope (00_scope.md): creation's answers, and what every step keeps of the configuration -/

section
/-! ### What creation answers (R11, R12) -/

namespace Sys2Proof

/-- What a legal configuration is, as the facts it consists of. -/
theorem Config.wf_iff (c : Config) :
    c.wf = true ↔ 1 ≤ c.memWords ∧ c.memWords ≤ 2 ^ 30 ∧ c.haltAddr.toNat % 4 = 0 ∧
      c.mmioOutAddr ≠ c.mmioInAddr ∧ c.opcodes.wf = true := by
  simp only [Config.wf, Bool.and_eq_true, decide_eq_true_eq, bne_iff_ne, and_assoc]

/-- In a well-formed map a function code registers one operation (R110). -/
theorem OpcodeMap.funct_injective {m : OpcodeMap} (hm : m.wf = true) : Function.Injective m.funct := fun a b h =>
  List.inj_on_of_nodup_map (m.wf_iff.1 hm).1 a.mem_all b.mem_all h

/-- In a well-formed map an opcode registers one operation (R110). -/
theorem OpcodeMap.opcode_injective {m : OpcodeMap} (hm : m.wf = true) : Function.Injective m.opcode := fun a b h =>
  List.inj_on_of_nodup_map (m.wf_iff.1 hm).2.1 a.mem_all b.mem_all h

end Sys2Proof

namespace Sys2Proof.Machine

/-- A capacity that R11 refuses has no number of words. -/
theorem memWordsOf_of_illegal {bytes : Nat} (h : bytes % 4 ≠ 0 ∨ 4294967296 < bytes) :
    memWordsOf bytes = .error (.illegalCapacity bytes) := by
  rw [memWordsOf, if_neg (by omega), if_neg (by omega)]

/-- The number of words of a legal capacity, where 0 asks for the default (R11). -/
theorem memWordsOf_of_legal {bytes : Nat} (h : bytes = 0 ∨ (bytes % 4 = 0 ∧ bytes ≤ 4294967296)) :
    memWordsOf bytes = .ok (if bytes = 0 then Config.defaultMemWords else bytes / 4) := by
  unfold memWordsOf
  by_cases h0 : bytes = 0
  · rw [if_pos h0, if_pos h0]
  · rw [if_neg h0, if_neg h0, if_pos (by omega)]

/-- Creation passes on the refusal of a capacity. -/
theorem create_of_memWordsOf_error {bytes : Nat} {r : Refusal} (h : memWordsOf bytes = .error r)
    (cfg : Config) (input : List Byte) : create bytes cfg input = .error r := by
  rw [create, h]

/-- Creation with a legal capacity and illegal parameters is refused. -/
theorem create_of_not_wf {bytes n : Nat} {cfg : Config} (h : memWordsOf bytes = .ok n)
    (hw : ¬ ({ cfg with memWords := n } : Config).wf = true) (input : List Byte) :
    create bytes cfg input = .error .illegalParameter := by
  simp only [create, h, if_neg hw]

/-- Creation with a legal capacity and legal parameters gives the reset state with them and the host's input. -/
theorem create_of_wf {bytes n : Nat} {cfg : Config} (h : memWordsOf bytes = .ok n)
    (hw : ({ cfg with memWords := n } : Config).wf = true) (input : List Byte) :
    create bytes cfg input = .ok { State.reset with cfg := { cfg with memWords := n }, input := input } := by
  simp only [create, h, if_pos hw]

/-- Settles O8: the capacity has no number of words, and creation passes the refusal on. -/
theorem illegalCapacityRefused : Obligations.IllegalCapacityRefused := by
  unfold Obligations.IllegalCapacityRefused
  intro bytes cfg input h
  exact create_of_memWordsOf_error (memWordsOf_of_illegal h) cfg input

/-- Settles O47: each of the five faults contradicts one part of a legal configuration. -/
theorem illegalParameterRefused : Obligations.IllegalParameterRefused := by
  unfold Obligations.IllegalParameterRefused
  intro bytes cfg input hbytes hbad
  refine create_of_not_wf (memWordsOf_of_legal hbytes) (fun hw => ?_) input
  obtain ⟨-, -, halt, mmio, map⟩ := (Config.wf_iff _).1 hw
  obtain h | h | ⟨a, b, hab, h⟩ | ⟨a, b, hab, h⟩ | ⟨a, h⟩ := hbad
  · exact h halt
  · exact mmio h
  · exact hab (OpcodeMap.funct_injective map h)
  · exact hab (OpcodeMap.opcode_injective map h)
  · obtain ⟨-, -, nonzero⟩ := (OpcodeMap.wf_iff _).1 map
    exact nonzero a h

/-- The default configuration is legal. -/
theorem Config.default_wf : Config.default.wf = true := by decide

/-- Settles O9: the default capacity and the default parameters are legal, so creation gives the reset state. -/
theorem resetIsCreationWithDefaults : Obligations.ResetIsCreationWithDefaults := by
  unfold Obligations.ResetIsCreationWithDefaults
  refine ⟨rfl, rfl, rfl, rfl, rfl, rfl, Config.default_wf, ?_⟩
  exact create_of_wf (cfg := Config.default) (memWordsOf_of_legal (.inl rfl)) Config.default_wf []

end Sys2Proof.Machine
end

section
/-! ### What every operation of the machine keeps, every step keeps -/

namespace Sys2Proof.Machine

/-- The state that an outcome leaves, next or final, satisfies `P`; a refusal leaves none. -/
def Leaves (P : State → Prop) : Result → Prop
  | .next t => P t
  | .fault f => P f.final
  | .refused _ => True

theorem Leaves.of_next {P : State → Prop} {o : Result} {t : State} (h : Leaves P o) (e : o = .next t) : P t := by
  rwa [e] at h

theorem Leaves.of_fault {P : State → Prop} {o : Result} {f : Fault} (h : Leaves P o) (e : o = .fault f) :
    P f.final := by
  rwa [e] at h

/-- A checked access that faults leaves the state as it was, so only the access itself is left to show. -/
theorem leaves_checkedAccess {P : State → Prop} {s : State} {a : Word} {access : Result}
    (h : P s) (ha : wordAddr a < s.cfg.memWords → a.toNat % 4 = 0 → Leaves P access) :
    Leaves P (checkedAccess s a access) := by
  obtain ⟨-, e⟩ | ⟨-, -, e⟩ | ⟨hr, hal, e⟩ := checkedAccess_cases s a access <;> rw [e]
  · exact h
  · exact h
  · exact ha hr hal

/-- Every operation of Machine/Ops.lean that an instruction is made of keeps `P`; memory is written only where the
checks of an access pass (R64, R65). -/
structure KeptByOps (P : State → Prop) : Prop where
  setPc     : ∀ s a, P s → P (s.setPc a)
  writeReg  : ∀ s r v, P s → P (s.writeReg r v)
  setHiLo   : ∀ s hi lo, P s → P (s.setHiLo hi lo)
  memWrite  : ∀ s a v, wordAddr a < s.cfg.memWords → a.toNat % 4 = 0 → P s → P (s.memWrite a v)
  outByte   : ∀ s b, P s → P (s.outByte b)
  withInput : ∀ s c rest, s.input = c :: rest → P s → P (s.withInput rest)

section
variable {P : State → Prop} (hP : KeptByOps P)
include hP

theorem KeptByOps.advance {s : State} (h : P s) : P s.advance := hP.setPc s _ h

theorem KeptByOps.leaves_complete {s : State} (h : P s) : Leaves P (complete s) := hP.writeReg s 0#5 0#32 h

theorem KeptByOps.leaves_writeResult {s : State} (h : P s) (d : Reg) (v : Word) : Leaves P (writeResult d v s) :=
  hP.leaves_complete (hP.writeReg _ d v (hP.advance h))

theorem KeptByOps.leaves_complete_setHiLo {s : State} (h : P s) (hi lo : Word) :
    Leaves P (complete (s.advance.setHiLo hi lo)) :=
  hP.leaves_complete (hP.setHiLo _ hi lo (hP.advance h))

theorem KeptByOps.leaves_execDiv {s : State} (h : P s) (a b : Reg) : Leaves P (execDiv a b s) := by
  simp only [execDiv]
  split_ifs
  · exact hP.advance h
  · exact hP.advance h
  · exact hP.leaves_complete_setHiLo h _ _

theorem KeptByOps.leaves_execDivu {s : State} (h : P s) (a b : Reg) : Leaves P (execDivu a b s) := by
  simp only [execDivu]
  split_ifs
  · exact hP.advance h
  · exact hP.leaves_complete_setHiLo h _ _

theorem KeptByOps.leaves_branchIf {s : State} (h : P s) (cond : Bool) (imm : Word) :
    Leaves P (branchIf cond imm s) := by
  unfold branchIf
  refine hP.leaves_complete ?_
  split_ifs
  · exact hP.setPc _ _ (hP.advance h)
  · exact hP.advance h

theorem KeptByOps.leaves_execLis {s : State} (h : P s) (d : Reg) : Leaves P (execLis d s) := by
  simp only [execLis]
  split_ifs
  · exact hP.leaves_complete (hP.setPc _ _ (hP.writeReg _ d _ (hP.advance h)))
  · exact hP.advance h

theorem KeptByOps.leaves_execLw {s : State} (h : P s) (b t : Reg) (imm : Word) : Leaves P (execLw b t imm s) := by
  have hadv := hP.advance h
  simp only [execLw]
  split_ifs
  · obtain ⟨-, e⟩ | ⟨c, rest, hin, e⟩ := inByte_cases s.advance <;> simp only [e]
    · exact hP.leaves_complete hadv
    · exact hP.leaves_complete (hP.writeReg _ t _ (hP.withInput _ c rest hin hadv))
  · exact leaves_checkedAccess hadv fun _ _ => hP.leaves_complete (hP.writeReg _ t _ hadv)

theorem KeptByOps.leaves_execSw {s : State} (h : P s) (b t : Reg) (imm : Word) : Leaves P (execSw b t imm s) := by
  have hadv := hP.advance h
  simp only [execSw]
  split_ifs
  · exact hP.leaves_complete (hP.outByte _ _ hadv)
  · exact leaves_checkedAccess hadv fun hr hal => hP.leaves_complete (hP.memWrite _ _ _ hr hal hadv)

/-- An instruction keeps what every operation keeps. -/
theorem KeptByOps.leaves_exec (i : Instr) {s : State} (h : P s) : Leaves P (exec i s) := by
  cases i with
  | add d a b => exact hP.leaves_writeResult h d _
  | sub d a b => exact hP.leaves_writeResult h d _
  | mult a b => exact hP.leaves_complete_setHiLo h _ _
  | multu a b => exact hP.leaves_complete_setHiLo h _ _
  | div a b => exact hP.leaves_execDiv h a b
  | divu a b => exact hP.leaves_execDivu h a b
  | mfhi d => exact hP.leaves_writeResult h d _
  | mflo d => exact hP.leaves_writeResult h d _
  | lis d => exact hP.leaves_execLis h d
  | slt d a b => exact hP.leaves_writeResult h d _
  | sltu d a b => exact hP.leaves_writeResult h d _
  | jr a => exact hP.leaves_complete (hP.setPc _ _ (hP.advance h))
  | jalr a => exact hP.leaves_complete (hP.setPc _ _ (hP.writeReg _ linkReg _ (hP.advance h)))
  | beq a b imm => exact hP.leaves_branchIf h _ imm
  | bne a b imm => exact hP.leaves_branchIf h _ imm
  | lw b t imm => exact hP.leaves_execLw h b t imm
  | sw b t imm => exact hP.leaves_execSw h b t imm

/-- A step keeps what every operation keeps: a stop of the fetch leaves the state as it was, and the
invalid-instruction handler advances pc. -/
theorem KeptByOps.leaves_step {s : State} (h : P s) : Leaves P (step s) := by
  obtain ⟨-, e⟩ | ⟨-, -, e⟩ | ⟨-, -, -, e⟩ | ⟨-, -, e⟩ | ⟨i, -, e⟩ := step_cases s <;> rw [e]
  · exact h
  · exact h
  · exact h
  · exact hP.advance h
  · exact hP.leaves_exec i h

end

/-- No operation changes the configuration inputs (R8). -/
theorem keptByOps_cfg (c : Config) : KeptByOps fun s => s.cfg = c where
  setPc _ _ h := h
  writeReg _ _ _ h := h
  setHiLo _ _ _ h := h
  memWrite _ _ _ _ _ h := h
  outByte _ _ h := h
  withInput _ _ _ _ h := h

/-- Settles O21: no operation changes the configuration, so no step does, whether it continues or stops. -/
theorem configurationIsConstant : Obligations.ConfigurationIsConstant := by
  unfold Obligations.ConfigurationIsConstant
  have kept (s : State) : Leaves (fun t => t.cfg = s.cfg) (step s) := (keptByOps_cfg s.cfg).leaves_step rfl
  exact ⟨fun s _ => (kept s).of_next, fun s _ => (kept s).of_fault⟩

end Sys2Proof.Machine
end

/-! # State (10_state.md): the invariant of a legal machine, and who reads and writes which part of the state -/

section
/-! ### Created and launched machines are legal (R32, R44, R50) -/

namespace Sys2Proof.Machine

/-- A created machine is legal: its configuration was checked, every register is zero and no byte is listed. -/
theorem inv_of_create {bytes : Nat} {cfg : Config} {input : List Byte} {s : State}
    (h : create bytes cfg input = .ok s) : s.Inv := by
  obtain ⟨c, hc, rfl⟩ := create_ok bytes cfg input s h
  exact {
    cfg_wf  := hc
    zero    := reset_readReg 0#5
    mem_wf  := ⟨List.Pairwise.nil, fun _ hx => absurd hx List.not_mem_nil⟩
    storage := fun _ hx => absurd hx List.not_mem_nil }

/-- Settles O12: reset is creation with the defaults, and a created machine is legal. -/
theorem resetIsLegal : Obligations.ResetIsLegal := by
  unfold Obligations.ResetIsLegal
  obtain ⟨-, -, -, -, -, -, -, created⟩ := resetIsCreationWithDefaults
  exact inv_of_create created

/-- What a load that answers leaves: the image's words placed, all of them within storage, `x[31]` and pc set (R342 to
R344, R346). -/
theorem load_ok {image : List Byte} {s t : State} (h : load image s = .ok t) :
    ∃ ws : List Word, s.cfg.loadWord + ws.length ≤ s.cfg.memWords ∧
      t = ({ s with mem := placeWords s.mem s.cfg.loadWord ws }.writeReg 31#5 s.cfg.haltAddr).setPc
        (BitVec.ofNat 32 (4 * s.cfg.loadWord)) := by
  unfold load at h
  split at h
  · cases h
  · next ws _ =>
    split at h
    · next hfit =>
      cases h
      exact ⟨ws, hfit, rfl⟩
    · cases h

/-- Loading keeps a machine legal: the image lies within storage, and `x[31]` is not `x[0]`. -/
theorem inv_of_load {image : List Byte} {s t : State} (hs : s.Inv) (h : load image s = .ok t) : t.Inv := by
  obtain ⟨ws, hfit, rfl⟩ := load_ok h
  constructor
  case cfg_wf => exact hs.cfg_wf
  case zero =>
    rw [setPc_readReg, readReg_writeReg, if_neg (by decide)]
    exact hs.zero
  case mem_wf => exact placeWords_wf ws s.mem s.cfg.loadWord hs.mem_wf
  case storage =>
    intro c hc
    show c.1 < 4 * s.cfg.memWords
    obtain hold | ⟨-, hnew⟩ := mem_placeWords ws s.mem s.cfg.loadWord c hc
    · exact hs.storage c hold
    · omega

/-- Settles O13: a launch is a creation, which gives a legal machine, and a load, which keeps it legal. -/
theorem launchedMachineIsLegal : Obligations.LaunchedMachineIsLegal := by
  unfold Obligations.LaunchedMachineIsLegal
  intro bytes cfg input image t h
  unfold launch at h
  split at h
  · cases h
  · next created => exact inv_of_load (inv_of_create created) h

end Sys2Proof.Machine
end

section
/-! ### The cases of the instructions that can end in more than one way -/

namespace Sys2Proof.Machine

section
variable {s : State} {a b d t : Reg} {imm : Word}

theorem execDiv_of_zero (h : (s.readReg b).toInt = 0) :
    execDiv a b s = .fault (.invalidInstruction s.pc s.advance) := if_pos h

theorem execDiv_of_overflow (hz : (s.readReg b).toInt ≠ 0)
    (h : (s.readReg a).toInt = -2147483648 ∧ (s.readReg b).toInt = -1) :
    execDiv a b s = .fault (.invalidInstruction s.pc s.advance) := (if_neg hz).trans (if_pos h)

theorem execDiv_of_completes (hz : (s.readReg b).toInt ≠ 0)
    (h : ¬ ((s.readReg a).toInt = -2147483648 ∧ (s.readReg b).toInt = -1)) :
    execDiv a b s = writeQuotient ((s.readReg a).toInt.tdiv (s.readReg b).toInt)
      ((s.readReg a).toInt - (s.readReg a).toInt.tdiv (s.readReg b).toInt * (s.readReg b).toInt) s :=
  (if_neg hz).trans (if_neg h)

theorem execDivu_of_zero (h : (s.readReg b).toNat = 0) :
    execDivu a b s = .fault (.invalidInstruction s.pc s.advance) := if_pos h

theorem execDivu_of_completes (h : (s.readReg b).toNat ≠ 0) :
    execDivu a b s = writeQuotient ((s.readReg a).toNat / (s.readReg b).toNat : Nat)
      ((s.readReg a).toNat % (s.readReg b).toNat : Nat) s := if_neg h

theorem execLis_of_inRange (h : s.inRange (s.pc + 4#32) = true) :
    execLis d s = complete ((s.advance.writeReg d (s.memRead (s.pc + 4#32))).setPc (s.pc + 4#32 + 4#32)) := if_pos h

theorem execLis_of_not_inRange (h : ¬ s.inRange (s.pc + 4#32) = true) :
    execLis d s = .fault (.outOfRangeMemoryAccess (s.pc + 4#32) s.advance) := if_neg h

theorem execLw_of_mmio_empty (h : effectiveAddress s b imm = s.cfg.mmioInAddr) (hin : s.input = []) :
    execLw b t imm s = complete s.advance := by
  have read : s.advance.inByte = none := by simp [State.inByte, hin]
  refine (if_pos h).trans ?_
  rw [read]

theorem execLw_of_mmio_byte (h : effectiveAddress s b imm = s.cfg.mmioInAddr) {c : Byte} {rest : List Byte}
    (hin : s.input = c :: rest) :
    execLw b t imm s = complete ((s.advance.withInput rest).writeReg t (c.zeroExtend 32)) := by
  have read : s.advance.inByte = some (c, s.advance.withInput rest) := by
    simp [State.inByte, State.withInput, hin]
  refine (if_pos h).trans ?_
  rw [read]

theorem execLw_of_not_mmio (h : effectiveAddress s b imm ≠ s.cfg.mmioInAddr) :
    execLw b t imm s = checkedAccess s.advance (effectiveAddress s b imm)
      (complete (s.advance.writeReg t (s.memRead (effectiveAddress s b imm)))) := if_neg h

theorem execSw_of_mmio (h : effectiveAddress s b imm = s.cfg.mmioOutAddr) :
    execSw b t imm s = complete (s.advance.outByte ((s.readReg t).extractLsb' 0 8)) := if_pos h

theorem execSw_of_not_mmio (h : effectiveAddress s b imm ≠ s.cfg.mmioOutAddr) :
    execSw b t imm s = checkedAccess s.advance (effectiveAddress s b imm)
      (complete (s.advance.memWrite (effectiveAddress s b imm) (s.readReg t))) := if_neg h

end

end Sys2Proof.Machine
end

section
/-! ### What an instruction writes before it ends, and how it ends -/

namespace Sys2Proof.Machine

/-- A multiple of 4 added to an aligned address gives an aligned address, also where the sum wraps around. -/
theorem toNat_add_mod_four {a b : Word} (ha : a.toNat % 4 = 0) (hb : b.toNat % 4 = 0) :
    (a + b).toNat % 4 = 0 := by
  rw [BitVec.toNat_add]
  omega

/-- A branch offset in bytes is a multiple of 4 (R223). -/
theorem toNat_shiftLeft_two_mod_four (imm : Word) : (imm <<< 2).toNat % 4 = 0 := by
  rw [BitVec.toNat_shiftLeft, Nat.shiftLeft_eq]
  omega

/-- From `s`, the instruction `i` has so far written no general register but its own, `hi` and `lo` only if it
multiplies or divides, and a misaligned pc only if it is a register jump (R33, R34, R38, R40). -/
structure WritesOnlyOwn (i : Instr) (s u : State) : Prop where
  reg  : ∀ r, writtenReg i ≠ some r → u.readReg r = s.readReg r
  hiLo : isMulDiv i = false → u.hi = s.hi ∧ u.lo = s.lo
  pc   : isRegisterJump i = false → s.pc.toNat % 4 = 0 → u.pc.toNat % 4 = 0

namespace WritesOnlyOwn

theorem advance (i : Instr) (s : State) : WritesOnlyOwn i s s.advance where
  reg _ _ := rfl
  hiLo _ := ⟨rfl, rfl⟩
  pc _ h := toNat_add_mod_four h rfl

variable {i : Instr} {s u : State} (hu : WritesOnlyOwn i s u)
include hu

theorem writeReg {d : Reg} (hd : writtenReg i = some d) (v : Word) : WritesOnlyOwn i s (u.writeReg d v) where
  reg r hr := by
    have hrd : r ≠ d := by
      rintro rfl
      exact hr hd
    rw [readReg_writeReg, if_neg hrd]
    exact hu.reg r hr
  hiLo := hu.hiLo
  pc := hu.pc

theorem setHiLo (hi : isMulDiv i = true) (h l : Word) : WritesOnlyOwn i s (u.setHiLo h l) where
  reg := hu.reg
  hiLo hn := absurd (hi.symm.trans hn) Bool.noConfusion
  pc := hu.pc

theorem setPc {a : Word} (ha : isRegisterJump i = false → s.pc.toNat % 4 = 0 → a.toNat % 4 = 0) :
    WritesOnlyOwn i s (u.setPc a) where
  reg := hu.reg
  hiLo := hu.hiLo
  pc := ha

theorem withInput (rest : List Byte) : WritesOnlyOwn i s (u.withInput rest) := ⟨hu.reg, hu.hiLo, hu.pc⟩

theorem outByte (b : Byte) : WritesOnlyOwn i s (u.outByte b) := ⟨hu.reg, hu.hiLo, hu.pc⟩

theorem memWrite (a v : Word) : WritesOnlyOwn i s (u.memWrite a v) := ⟨hu.reg, hu.hiLo, hu.pc⟩

end WritesOnlyOwn

/-- The two ways in which the instruction `i` ends from `s`: it completes, having written only what is its own, or it
raises a status with nothing but pc advanced (R148, R151). -/
def Ends (i : Instr) (s : State) (o : Result) : Prop :=
  (∃ u, o = complete u ∧ WritesOnlyOwn i s u) ∨ ∃ f : Fault, o = .fault f ∧ f.final = s.advance

section
variable {i : Instr} {s : State}

theorem WritesOnlyOwn.ends {u : State} (h : WritesOnlyOwn i s u) : Ends i s (complete u) := .inl ⟨u, rfl, h⟩

theorem ends_fault {f : Fault} (h : f.final = s.advance) : Ends i s (.fault f) := .inr ⟨f, rfl, h⟩

theorem ends_writeResult {d : Reg} (hd : writtenReg i = some d) (v : Word) : Ends i s (writeResult d v s) :=
  ((WritesOnlyOwn.advance i s).writeReg hd v).ends

theorem ends_complete_setHiLo (hi : isMulDiv i = true) (h l : Word) :
    Ends i s (complete (s.advance.setHiLo h l)) :=
  ((WritesOnlyOwn.advance i s).setHiLo hi h l).ends

theorem ends_checkedAccess {a : Word} {access : Result} (h : Ends i s access) :
    Ends i s (checkedAccess s.advance a access) := by
  obtain ⟨-, e⟩ | ⟨-, -, e⟩ | ⟨-, -, e⟩ := checkedAccess_cases s.advance a access <;> rw [e]
  · exact ends_fault rfl
  · exact ends_fault rfl
  · exact h

theorem ends_branchIf (cond : Bool) (imm : Word) : Ends i s (branchIf cond imm s) := by
  have hadv := WritesOnlyOwn.advance i s
  unfold branchIf
  refine WritesOnlyOwn.ends ?_
  split_ifs
  · exact hadv.setPc fun hj hs => toNat_add_mod_four (hadv.pc hj hs) (toNat_shiftLeft_two_mod_four imm)
  · exact hadv

end

theorem ends_execDiv (a b : Reg) (s : State) : Ends (.div a b) s (execDiv a b s) := by
  by_cases hz : (s.readReg b).toInt = 0
  · exact .inr ⟨_, execDiv_of_zero hz, rfl⟩
  · by_cases ho : (s.readReg a).toInt = -2147483648 ∧ (s.readReg b).toInt = -1
    · exact .inr ⟨_, execDiv_of_overflow hz ho, rfl⟩
    · rw [execDiv_of_completes hz ho]
      exact ends_complete_setHiLo rfl _ _

theorem ends_execDivu (a b : Reg) (s : State) : Ends (.divu a b) s (execDivu a b s) := by
  by_cases hz : (s.readReg b).toNat = 0
  · exact .inr ⟨_, execDivu_of_zero hz, rfl⟩
  · rw [execDivu_of_completes hz]
    exact ends_complete_setHiLo rfl _ _

theorem ends_execLis (d : Reg) (s : State) : Ends (.lis d) s (execLis d s) := by
  have hadv := WritesOnlyOwn.advance (.lis d) s
  by_cases hr : s.inRange (s.pc + 4#32) = true
  · rw [execLis_of_inRange hr]
    exact ((hadv.writeReg rfl _).setPc fun hj hs => toNat_add_mod_four (hadv.pc hj hs) rfl).ends
  · exact .inr ⟨_, execLis_of_not_inRange hr, rfl⟩

theorem ends_execLw (b t : Reg) (imm : Word) (s : State) : Ends (.lw b t imm) s (execLw b t imm s) := by
  have hadv := WritesOnlyOwn.advance (.lw b t imm) s
  by_cases hm : effectiveAddress s b imm = s.cfg.mmioInAddr
  · cases hin : s.input with
    | nil =>
      rw [execLw_of_mmio_empty hm hin]
      exact hadv.ends
    | cons c rest =>
      rw [execLw_of_mmio_byte hm hin]
      exact ((hadv.withInput rest).writeReg rfl _).ends
  · rw [execLw_of_not_mmio hm]
    exact ends_checkedAccess (hadv.writeReg rfl _).ends

theorem ends_execSw (b t : Reg) (imm : Word) (s : State) : Ends (.sw b t imm) s (execSw b t imm s) := by
  have hadv := WritesOnlyOwn.advance (.sw b t imm) s
  by_cases hm : effectiveAddress s b imm = s.cfg.mmioOutAddr
  · rw [execSw_of_mmio hm]
    exact (hadv.outByte _).ends
  · rw [execSw_of_not_mmio hm]
    exact ends_checkedAccess (hadv.memWrite _ _).ends

/-- Every instruction, from every state, ends in one of these two ways. -/
theorem ends_exec (i : Instr) (s : State) : Ends i s (exec i s) := by
  have hadv := WritesOnlyOwn.advance i s
  cases i with
  | add d a b => exact ends_writeResult rfl _
  | sub d a b => exact ends_writeResult rfl _
  | mult a b => exact ends_complete_setHiLo rfl _ _
  | multu a b => exact ends_complete_setHiLo rfl _ _
  | div a b => exact ends_execDiv a b s
  | divu a b => exact ends_execDivu a b s
  | mfhi d => exact ends_writeResult rfl _
  | mflo d => exact ends_writeResult rfl _
  | lis d => exact ends_execLis d s
  | slt d a b => exact ends_writeResult rfl _
  | sltu d a b => exact ends_writeResult rfl _
  | jr a => exact (hadv.setPc fun hj => absurd hj Bool.noConfusion).ends
  | jalr a => exact ((hadv.writeReg rfl _).setPc fun hj => absurd hj Bool.noConfusion).ends
  | beq a b imm => exact ends_branchIf _ imm
  | bne a b imm => exact ends_branchIf _ imm
  | lw b t imm => exact ends_execLw b t imm s
  | sw b t imm => exact ends_execSw b t imm s

/-- The state that a completed instruction leaves: what it wrote, and then the commit of `x[0]` (R148). -/
theorem exec_next {i : Instr} {s t : State} (h : exec i s = .next t) :
    ∃ u, WritesOnlyOwn i s u ∧ t = u.writeReg 0#5 0#32 := by
  obtain ⟨u, e, hu⟩ | ⟨f, e, -⟩ := ends_exec i s <;> rw [e] at h
  · exact ⟨u, hu, (complete_next_iff u t).1 h⟩
  · cases h

/-- Settles O23: an instruction that is no register jump writes no misaligned pc; `jr` and `jalr` write the register's
value; and the alignment check is the first of a step. -/
theorem alignmentOfPc : Obligations.AlignmentOfPc := by
  unfold Obligations.AlignmentOfPc
  refine ⟨fun s t i hs hj h => ?_, fun s a => ⟨_, rfl, rfl⟩, fun s a => ⟨_, rfl, rfl⟩, fun s hs => ?_⟩
  · obtain ⟨u, hu, rfl⟩ := exec_next h
    exact hu.pc hj hs
  · obtain ⟨-, e⟩ | ⟨hal, -⟩ | ⟨hal, -⟩ | ⟨hok, -⟩ | ⟨i, ⟨hok, -⟩, -⟩ := step_cases s
    · exact e
    · exact absurd hal hs
    · exact absurd hal hs
    · exact absurd ((fetchOk_iff_checks s).1 hok).1 hs
    · exact absurd ((fetchOk_iff_checks s).1 hok).1 hs

/-- Settles O24: before the commit an instruction has written its own register alone, and the commit writes `x[0]`. -/
theorem onlyNamedRegisterWritten : Obligations.OnlyNamedRegisterWritten := by
  unfold Obligations.OnlyNamedRegisterWritten
  intro i s t r h hr hw
  obtain ⟨u, hu, rfl⟩ := exec_next h
  rw [readReg_writeReg, if_neg hr]
  exact hu.reg r hw

end Sys2Proof.Machine
end

section
/-! ### Every step keeps a legal machine legal -/

namespace Sys2Proof.Machine

/-- What an outcome leaves satisfies together what it satisfies one by one. -/
theorem Leaves.and {P Q : State → Prop} {o : Result} (hp : Leaves P o) (hq : Leaves Q o) :
    Leaves (fun t => P t ∧ Q t) o := by
  cases o with
  | next t => exact ⟨hp, hq⟩
  | fault f => exact ⟨hp, hq⟩
  | refused r => trivial

theorem Leaves.imp {P Q : State → Prop} {o : Result} (hp : Leaves P o) (h : ∀ t, P t → Q t) : Leaves Q o := by
  cases o with
  | next t => exact h t hp
  | fault f => exact h f.final hp
  | refused r => trivial

/-- `x[0]` is zero after an instruction: a completion commits it, and a stop leaves it as it was (R148, R151). -/
theorem leaves_readReg_zero_exec (i : Instr) {s : State} (h : s.readReg 0#5 = 0#32) :
    Leaves (fun t => t.readReg 0#5 = 0#32) (exec i s) := by
  obtain ⟨u, e, -⟩ | ⟨f, e, hf⟩ := ends_exec i s <;> rw [e]
  · exact (readReg_writeReg u 0#5 0#5 0#32).trans (if_pos rfl)
  · show f.final.readReg 0#5 = 0#32
    rw [hf, advance_readReg, h]

/-- `x[0]` stays zero over a step (R32). -/
theorem leaves_readReg_zero_step {s : State} (h : s.readReg 0#5 = 0#32) :
    Leaves (fun t => t.readReg 0#5 = 0#32) (step s) := by
  obtain ⟨-, e⟩ | ⟨-, -, e⟩ | ⟨-, -, -, e⟩ | ⟨-, -, e⟩ | ⟨i, -, e⟩ := step_cases s <;> rw [e]
  · exact h
  · exact h
  · exact h
  · exact h
  · exact leaves_readReg_zero_exec i h

/-- The part of the invariant that every single operation keeps: all of it but `x[0]`, which a handler may write before
its commit (R148). -/
structure StorageLegal (s : State) : Prop where
  cfg_wf  : s.cfg.wf = true
  mem_wf  : s.mem.wf
  storage : ∀ c ∈ s.mem, c.1 < 4 * s.cfg.memWords

/-- A legal machine is one with legal storage and `x[0]` zero. -/
theorem inv_iff (s : State) : s.Inv ↔ StorageLegal s ∧ s.readReg 0#5 = 0#32 :=
  ⟨fun h => ⟨⟨h.cfg_wf, h.mem_wf, h.storage⟩, h.zero⟩, fun ⟨h, hz⟩ => ⟨h.cfg_wf, hz, h.mem_wf, h.storage⟩⟩

/-- A word written in range lists no byte outside storage (R44, R64). -/
theorem StorageLegal.memWrite {s : State} (h : StorageLegal s) {a : Word} (ha : wordAddr a < s.cfg.memWords)
    (v : Word) : StorageLegal (s.memWrite a v) where
  cfg_wf := h.cfg_wf
  mem_wf := writeWord_wf s.mem (wordAddr a) v h.mem_wf
  storage c hc := by
    show c.1 < 4 * s.cfg.memWords
    obtain hold | ⟨-, hnew⟩ := mem_writeWord s.mem (wordAddr a) v c hc
    · exact h.storage c hold
    · omega

/-- Memory is written where the range check passes, and no other operation touches storage. -/
theorem keptByOps_storageLegal : KeptByOps StorageLegal where
  setPc _ _ h := ⟨h.cfg_wf, h.mem_wf, h.storage⟩
  writeReg _ _ _ h := ⟨h.cfg_wf, h.mem_wf, h.storage⟩
  setHiLo _ _ _ h := ⟨h.cfg_wf, h.mem_wf, h.storage⟩
  memWrite _ _ v ha _ h := h.memWrite ha v
  outByte _ _ h := ⟨h.cfg_wf, h.mem_wf, h.storage⟩
  withInput _ _ _ _ h := ⟨h.cfg_wf, h.mem_wf, h.storage⟩

/-- A step leaves a legal machine legal. -/
theorem leaves_inv_step {s : State} (h : s.Inv) : Leaves State.Inv (step s) := by
  obtain ⟨hst, hz⟩ := (inv_iff s).1 h
  exact ((keptByOps_storageLegal.leaves_step hst).and (leaves_readReg_zero_step hz)).imp fun t => (inv_iff t).2

/-- Settles O22: every operation keeps storage legal, and `x[0]` is zero at the commit. -/
theorem stepKeepsMachineLegal : Obligations.StepKeepsMachineLegal := by
  unfold Obligations.StepKeepsMachineLegal
  exact ⟨fun s _ h => (leaves_inv_step h).of_next, fun s _ h => (leaves_inv_step h).of_fault⟩

end Sys2Proof.Machine
end

section
/-! ### Other values in `hi` and `lo` (R40) -/

namespace Sys2Proof.Machine

section
variable (s : State) (h l : Word)

theorem complete_withHiLo : complete (s.withHiLo h l) = mapState (fun u => u.withHiLo h l) (complete s) := rfl

theorem writeResult_withHiLo (d : Reg) (v : Word) :
    writeResult d v (s.withHiLo h l) = mapState (fun u => u.withHiLo h l) (writeResult d v s) := rfl

/-- The checks of an access do not read `hi` and `lo`, so only the access itself is left to compare. -/
theorem checkedAccess_withHiLo (a : Word) {access access' : Result}
    (e : access' = mapState (fun u => u.withHiLo h l) access) :
    checkedAccess (s.withHiLo h l) a access' = mapState (fun u => u.withHiLo h l) (checkedAccess s a access) := by
  have range : (s.withHiLo h l).inRange a = s.inRange a := rfl
  simp only [checkedAccess, range, e]
  split_ifs <;> rfl

theorem branchIf_withHiLo (cond : Bool) (imm : Word) :
    branchIf cond imm (s.withHiLo h l) = mapState (fun u => u.withHiLo h l) (branchIf cond imm s) := by
  cases cond <;> rfl

theorem execLis_withHiLo (d : Reg) :
    execLis d (s.withHiLo h l) = mapState (fun u => u.withHiLo h l) (execLis d s) := by
  by_cases hr : s.inRange (s.pc + 4#32) = true
  · rw [execLis_of_inRange hr, execLis_of_inRange (s := s.withHiLo h l) hr]
    rfl
  · rw [execLis_of_not_inRange hr, execLis_of_not_inRange (s := s.withHiLo h l) hr]
    rfl

theorem execLw_withHiLo (b t : Reg) (imm : Word) :
    execLw b t imm (s.withHiLo h l) = mapState (fun u => u.withHiLo h l) (execLw b t imm s) := by
  by_cases hm : effectiveAddress s b imm = s.cfg.mmioInAddr
  · cases hin : s.input with
    | nil =>
      rw [execLw_of_mmio_empty hm hin, execLw_of_mmio_empty (s := s.withHiLo h l) hm hin]
      rfl
    | cons c rest =>
      rw [execLw_of_mmio_byte hm hin, execLw_of_mmio_byte (s := s.withHiLo h l) hm hin]
      rfl
  · rw [execLw_of_not_mmio hm, execLw_of_not_mmio (s := s.withHiLo h l) hm]
    exact checkedAccess_withHiLo s.advance h l _ rfl

theorem execSw_withHiLo (b t : Reg) (imm : Word) :
    execSw b t imm (s.withHiLo h l) = mapState (fun u => u.withHiLo h l) (execSw b t imm s) := by
  by_cases hm : effectiveAddress s b imm = s.cfg.mmioOutAddr
  · rw [execSw_of_mmio hm, execSw_of_mmio (s := s.withHiLo h l) hm]
    rfl
  · rw [execSw_of_not_mmio hm, execSw_of_not_mmio (s := s.withHiLo h l) hm]
    exact checkedAccess_withHiLo s.advance h l _ rfl

/-- An instruction that is no multiply, no divide and no move from `hi` or `lo` neither reads nor writes them. -/
theorem exec_withHiLo {i : Instr} (hw : isMulDiv i = false) (hr : isMoveFrom i = false) :
    exec i (s.withHiLo h l) = mapState (fun u => u.withHiLo h l) (exec i s) := by
  cases i with
  | add d a b => exact writeResult_withHiLo s h l d _
  | sub d a b => exact writeResult_withHiLo s h l d _
  | mult a b => cases hw
  | multu a b => cases hw
  | div a b => cases hw
  | divu a b => cases hw
  | mfhi d => cases hr
  | mflo d => cases hr
  | lis d => exact execLis_withHiLo s h l d
  | slt d a b => exact writeResult_withHiLo s h l d _
  | sltu d a b => exact writeResult_withHiLo s h l d _
  | jr a => exact complete_withHiLo (s.advance.setPc (s.readReg a)) h l
  | jalr a => exact complete_withHiLo ((s.advance.writeReg linkReg s.advance.pc).setPc (s.readReg a)) h l
  | beq a b imm => exact branchIf_withHiLo s h l _ imm
  | bne a b imm => exact branchIf_withHiLo s h l _ imm
  | lw b t imm => exact execLw_withHiLo s h l b t imm
  | sw b t imm => exact execSw_withHiLo s h l b t imm

end

/-- A division that completes overwrites both `hi` and `lo`. -/
theorem execDiv_withHiLo {s t : State} {a b : Reg} (e : execDiv a b s = .next t) (h l : Word) :
    execDiv a b (s.withHiLo h l) = .next t := by
  by_cases hz : (s.readReg b).toInt = 0
  · cases (execDiv_of_zero hz).symm.trans e
  · by_cases ho : (s.readReg a).toInt = -2147483648 ∧ (s.readReg b).toInt = -1
    · cases (execDiv_of_overflow hz ho).symm.trans e
    · rw [execDiv_of_completes hz ho] at e
      rw [execDiv_of_completes (s := s.withHiLo h l) hz ho]
      exact e

theorem execDivu_withHiLo {s t : State} {a b : Reg} (e : execDivu a b s = .next t) (h l : Word) :
    execDivu a b (s.withHiLo h l) = .next t := by
  by_cases hz : (s.readReg b).toNat = 0
  · cases (execDivu_of_zero hz).symm.trans e
  · rw [execDivu_of_completes hz] at e
    rw [execDivu_of_completes (s := s.withHiLo h l) hz]
    exact e

/-- A multiply or divide that completes reaches the same state whatever `hi` and `lo` held. -/
theorem exec_withHiLo_of_mulDiv {i : Instr} {s t : State} (hi : isMulDiv i = true) (e : exec i s = .next t)
    (h l : Word) : exec i (s.withHiLo h l) = .next t := by
  cases i with
  | mult a b => exact e
  | multu a b => exact e
  | div a b => exact execDiv_withHiLo e h l
  | divu a b => exact execDivu_withHiLo e h l
  | _ => cases hi

/-- Settles O25: before the commit only a multiply or divide has written `hi` and `lo`, and no arm but those of `mfhi`
and `mflo` reads them. -/
theorem hiLoWrittenAndReadOnlyByTheirOwn : Obligations.HiLoWrittenAndReadOnlyByTheirOwn := by
  unfold Obligations.HiLoWrittenAndReadOnlyByTheirOwn
  refine ⟨fun i s t hi e => ?_, fun i s h l hw hr => exec_withHiLo s h l hw hr,
    fun i s t h l hi e => exec_withHiLo_of_mulDiv hi e h l⟩
  obtain ⟨u, hu, rfl⟩ := exec_next e
  exact hu.hiLo hi

end Sys2Proof.Machine
end

/-! # Memory (20_memory.md): who changes it, its accesses at every address, and the dump -/

section
/-! ### Memory and the channels change by their own instructions alone (R60, R70 to R72, R77) -/

namespace Sys2Proof.Machine

/-- From `s` to `u` memory and the two channels are unchanged, but for what the instruction `i` may change of them. -/
structure ChangesOnlyOwnStorage (i : Instr) (s u : State) : Prop where
  mem    : writesMemory i s = false → u.mem = s.mem
  output : writesOutput i s = false → u.output = s.output
  input  : readsInput i s = false → u.input = s.input

section
variable {i : Instr} {s : State}

/-- What leaves memory and both channels as they are is within the rights of every instruction. -/
theorem ChangesOnlyOwnStorage.of_kept {u : State} (hmem : u.mem = s.mem) (hout : u.output = s.output)
    (hin : u.input = s.input) : ChangesOnlyOwnStorage i s u :=
  ⟨fun _ => hmem, fun _ => hout, fun _ => hin⟩

theorem changesOnlyOwnStorage_advance : ChangesOnlyOwnStorage i s s.advance := .of_kept rfl rfl rfl

theorem leaves_complete_of_kept {u : State} (hmem : u.mem = s.mem) (hout : u.output = s.output)
    (hin : u.input = s.input) : Leaves (ChangesOnlyOwnStorage i s) (complete u) :=
  ChangesOnlyOwnStorage.of_kept (u := u.writeReg 0#5 0#32) hmem hout hin

theorem leaves_ownStorage_branchIf (cond : Bool) (imm : Word) :
    Leaves (ChangesOnlyOwnStorage i s) (branchIf cond imm s) := by
  cases cond <;> exact leaves_complete_of_kept rfl rfl rfl

end

theorem leaves_ownStorage_execDiv (a b : Reg) (s : State) :
    Leaves (ChangesOnlyOwnStorage (.div a b) s) (execDiv a b s) := by
  by_cases hz : (s.readReg b).toInt = 0
  · rw [execDiv_of_zero hz]
    exact changesOnlyOwnStorage_advance
  · by_cases ho : (s.readReg a).toInt = -2147483648 ∧ (s.readReg b).toInt = -1
    · rw [execDiv_of_overflow hz ho]
      exact changesOnlyOwnStorage_advance
    · rw [execDiv_of_completes hz ho]
      exact leaves_complete_of_kept rfl rfl rfl

theorem leaves_ownStorage_execDivu (a b : Reg) (s : State) :
    Leaves (ChangesOnlyOwnStorage (.divu a b) s) (execDivu a b s) := by
  by_cases hz : (s.readReg b).toNat = 0
  · rw [execDivu_of_zero hz]
    exact changesOnlyOwnStorage_advance
  · rw [execDivu_of_completes hz]
    exact leaves_complete_of_kept rfl rfl rfl

theorem leaves_ownStorage_execLis (d : Reg) (s : State) :
    Leaves (ChangesOnlyOwnStorage (.lis d) s) (execLis d s) := by
  by_cases hr : s.inRange (s.pc + 4#32) = true
  · rw [execLis_of_inRange hr]
    exact leaves_complete_of_kept rfl rfl rfl
  · rw [execLis_of_not_inRange hr]
    exact changesOnlyOwnStorage_advance

/-- A `lw` consumes input at `MMIO_IN_ADDR` alone (R71). -/
theorem leaves_ownStorage_execLw (b t : Reg) (imm : Word) (s : State) :
    Leaves (ChangesOnlyOwnStorage (.lw b t imm) s) (execLw b t imm s) := by
  by_cases hm : effectiveAddress s b imm = s.cfg.mmioInAddr
  · have reads : readsInput (.lw b t imm) s = true := beq_iff_eq.2 hm
    cases hin : s.input with
    | nil =>
      rw [execLw_of_mmio_empty hm hin]
      exact leaves_complete_of_kept rfl rfl rfl
    | cons c rest =>
      rw [execLw_of_mmio_byte hm hin]
      exact ⟨fun _ => rfl, fun _ => rfl, fun h => absurd (reads.symm.trans h) Bool.noConfusion⟩
  · rw [execLw_of_not_mmio hm]
    exact leaves_checkedAccess changesOnlyOwnStorage_advance fun _ _ => leaves_complete_of_kept rfl rfl rfl

/-- A `sw` emits a byte at `MMIO_OUT_ADDR` and writes memory at every other address (R72). -/
theorem leaves_ownStorage_execSw (b t : Reg) (imm : Word) (s : State) :
    Leaves (ChangesOnlyOwnStorage (.sw b t imm) s) (execSw b t imm s) := by
  by_cases hm : effectiveAddress s b imm = s.cfg.mmioOutAddr
  · have writes : writesOutput (.sw b t imm) s = true := beq_iff_eq.2 hm
    rw [execSw_of_mmio hm]
    exact ⟨fun _ => rfl, fun h => absurd (writes.symm.trans h) Bool.noConfusion, fun _ => rfl⟩
  · have writes : writesMemory (.sw b t imm) s = true := bne_iff_ne.2 hm
    rw [execSw_of_not_mmio hm]
    exact leaves_checkedAccess changesOnlyOwnStorage_advance fun _ _ =>
      ⟨fun h => absurd (writes.symm.trans h) Bool.noConfusion, fun _ => rfl, fun _ => rfl⟩

/-- Every instruction, whether it completes or stops, changes no more of memory and the channels than is its own. -/
theorem leaves_ownStorage_exec (i : Instr) (s : State) : Leaves (ChangesOnlyOwnStorage i s) (exec i s) := by
  cases i with
  | add d a b => exact leaves_complete_of_kept rfl rfl rfl
  | sub d a b => exact leaves_complete_of_kept rfl rfl rfl
  | mult a b => exact leaves_complete_of_kept rfl rfl rfl
  | multu a b => exact leaves_complete_of_kept rfl rfl rfl
  | div a b => exact leaves_ownStorage_execDiv a b s
  | divu a b => exact leaves_ownStorage_execDivu a b s
  | mfhi d => exact leaves_complete_of_kept rfl rfl rfl
  | mflo d => exact leaves_complete_of_kept rfl rfl rfl
  | lis d => exact leaves_ownStorage_execLis d s
  | slt d a b => exact leaves_complete_of_kept rfl rfl rfl
  | sltu d a b => exact leaves_complete_of_kept rfl rfl rfl
  | jr a => exact leaves_complete_of_kept rfl rfl rfl
  | jalr a => exact leaves_complete_of_kept rfl rfl rfl
  | beq a b imm => exact leaves_ownStorage_branchIf _ imm
  | bne a b imm => exact leaves_ownStorage_branchIf _ imm
  | lw b t imm => exact leaves_ownStorage_execLw b t imm s
  | sw b t imm => exact leaves_ownStorage_execSw b t imm s

/-- Settles O26: no arm but those of `lw` and `sw` touches memory or a channel, and theirs do at their own addresses
alone. -/
theorem memoryAndChannelsChangedOnlyByTheirOwn : Obligations.MemoryAndChannelsChangedOnlyByTheirOwn := by
  unfold Obligations.MemoryAndChannelsChangedOnlyByTheirOwn
  intro i s t h
  obtain ⟨mem, output, input⟩ := (leaves_ownStorage_exec i s).of_next h
  exact ⟨mem, output, input⟩

end Sys2Proof.Machine
end

section
/-! ### How an ordinary access of `lw`, `sw` and `lis` ends (R64 to R66, R69, R250 to R252) -/

namespace Sys2Proof.Machine

/-- One general register written before the commit, with pc at `A + 4`, is all that a completed instruction changes. -/
theorem onlyRegWritten_commit (d : Reg) (v : Word) (s : State) :
    OnlyRegWritten d v s ((s.advance.writeReg d v).writeReg 0#5 0#32) := by
  refine ⟨rfl, fun q => ?_, ⟨rfl, rfl⟩, fun _ => rfl, ⟨rfl, rfl⟩, rfl⟩
  rw [readReg_writeReg, readReg_writeReg, advance_readReg]

section
variable {s : State} {a : Word} {access : Result}

theorem checkedAccess_of_outOfRange (h : s.cfg.memWords ≤ a.toNat / 4) :
    checkedAccess s a access = .fault (.outOfRangeMemoryAccess a s) := by
  obtain ⟨-, e⟩ | ⟨hr, -⟩ | ⟨hr, -⟩ := checkedAccess_cases s a access
  · exact e
  · exact absurd hr (Nat.not_lt.2 h)
  · exact absurd hr (Nat.not_lt.2 h)

theorem checkedAccess_of_unaligned (hr : a.toNat / 4 < s.cfg.memWords) (ha : a.toNat % 4 ≠ 0) :
    checkedAccess s a access = .fault (.unalignedMemoryAccess a s) := by
  obtain ⟨hn, -⟩ | ⟨-, -, e⟩ | ⟨-, hal, -⟩ := checkedAccess_cases s a access
  · exact absurd hr hn
  · exact e
  · exact absurd hal ha

theorem checkedAccess_of_passed (hr : a.toNat / 4 < s.cfg.memWords) (ha : a.toNat % 4 = 0) :
    checkedAccess s a access = access := by
  obtain ⟨hn, -⟩ | ⟨-, hal, -⟩ | ⟨-, -, e⟩ := checkedAccess_cases s a access
  · exact absurd hr hn
  · exact absurd ha hal
  · exact e

/-- An access that completes has passed both checks. -/
theorem checkedAccess_next {t : State} (h : checkedAccess s a access = .next t) :
    a.toNat / 4 < s.cfg.memWords ∧ a.toNat % 4 = 0 ∧ access = .next t := by
  obtain ⟨-, e⟩ | ⟨-, -, e⟩ | ⟨hr, ha, e⟩ := checkedAccess_cases s a access <;> rw [e] at h
  · cases h
  · cases h
  · exact ⟨hr, ha, h⟩

end

section
variable {s : State} {b r : Reg} {imm ba : Word}

/-! #### `lw` from memory -/

theorem exec_lw_of_outOfRange (hba : effectiveAddress s b imm = ba) (hm : ba ≠ s.cfg.mmioInAddr)
    (hr : s.cfg.memWords ≤ ba.toNat / 4) :
    exec (.lw b r imm) s = .fault (.outOfRangeMemoryAccess ba { s with pc := s.pc + 4#32 }) := by
  subst hba
  exact (execLw_of_not_mmio hm).trans (checkedAccess_of_outOfRange hr)

theorem exec_lw_of_unaligned (hba : effectiveAddress s b imm = ba) (hm : ba ≠ s.cfg.mmioInAddr)
    (hr : ba.toNat / 4 < s.cfg.memWords) (ha : ba.toNat % 4 ≠ 0) :
    exec (.lw b r imm) s = .fault (.unalignedMemoryAccess ba { s with pc := s.pc + 4#32 }) := by
  subst hba
  exact (execLw_of_not_mmio hm).trans (checkedAccess_of_unaligned hr ha)

theorem exec_lw_loads (hba : effectiveAddress s b imm = ba) (hm : ba ≠ s.cfg.mmioInAddr)
    (hr : ba.toNat / 4 < s.cfg.memWords) (ha : ba.toNat % 4 = 0) :
    ∃ t, exec (.lw b r imm) s = .next t ∧ OnlyRegWritten r (s.mem.readWord (ba.toNat / 4)) s t := by
  subst hba
  exact ⟨_, (execLw_of_not_mmio hm).trans (checkedAccess_of_passed hr ha), onlyRegWritten_commit r _ s⟩

/-! #### `sw` to memory -/

theorem exec_sw_of_outOfRange (hba : effectiveAddress s b imm = ba) (hm : ba ≠ s.cfg.mmioOutAddr)
    (hr : s.cfg.memWords ≤ ba.toNat / 4) :
    exec (.sw b r imm) s = .fault (.outOfRangeMemoryAccess ba { s with pc := s.pc + 4#32 }) := by
  subst hba
  exact (execSw_of_not_mmio hm).trans (checkedAccess_of_outOfRange hr)

theorem exec_sw_of_unaligned (hba : effectiveAddress s b imm = ba) (hm : ba ≠ s.cfg.mmioOutAddr)
    (hr : ba.toNat / 4 < s.cfg.memWords) (ha : ba.toNat % 4 ≠ 0) :
    exec (.sw b r imm) s = .fault (.unalignedMemoryAccess ba { s with pc := s.pc + 4#32 }) := by
  subst hba
  exact (execSw_of_not_mmio hm).trans (checkedAccess_of_unaligned hr ha)

theorem exec_sw_of_passed (hba : effectiveAddress s b imm = ba) (hm : ba ≠ s.cfg.mmioOutAddr)
    (hr : ba.toNat / 4 < s.cfg.memWords) (ha : ba.toNat % 4 = 0) :
    exec (.sw b r imm) s = .next ((s.advance.memWrite ba (s.readReg r)).writeReg 0#5 0#32) := by
  subst hba
  exact (execSw_of_not_mmio hm).trans (checkedAccess_of_passed hr ha)

/-- A `sw` to memory that completes had an address in range and aligned, and stored the register there. -/
theorem exec_sw_next {t : State} (hm : effectiveAddress s b imm ≠ s.cfg.mmioOutAddr)
    (h : exec (.sw b r imm) s = .next t) :
    (effectiveAddress s b imm).toNat / 4 < s.cfg.memWords ∧ (effectiveAddress s b imm).toNat % 4 = 0 ∧
      t = (s.advance.memWrite (effectiveAddress s b imm) (s.readReg r)).writeReg 0#5 0#32 := by
  obtain ⟨hr, ha, e⟩ := checkedAccess_next ((execSw_of_not_mmio hm).symm.trans h)
  exact ⟨hr, ha, (complete_next_iff _ t).1 e⟩

/-- An aligned word written changes no byte outside its own four. -/
theorem memKeptOutside_memWrite (hwf : s.mem.wf) (ha : ba.toNat % 4 = 0) (v : Word) :
    MemKeptOutside ba s (s.memWrite ba v) := fun k hk => by
  rw [← four_mul_wordAddr ba ha] at hk
  exact readByte_writeWord_outside s.mem (wordAddr ba) k v hwf hk

theorem exec_sw_stores (hwf : s.mem.wf) (hba : effectiveAddress s b imm = ba) (hm : ba ≠ s.cfg.mmioOutAddr)
    (hr : ba.toNat / 4 < s.cfg.memWords) (ha : ba.toNat % 4 = 0) :
    ∃ t, exec (.sw b r imm) s = .next t ∧ t.pc = s.pc + 4#32 ∧
      t.mem.readWord (ba.toNat / 4) = s.readReg r ∧ MemKeptOutside ba s t ∧
      RegsKept s t ∧ HiLoKept s t ∧ IoKept s t ∧ CfgKept s t := by
  refine ⟨_, exec_sw_of_passed hba hm hr ha, rfl, ?_, memKeptOutside_memWrite hwf ha _, fun q => ?_,
    ⟨rfl, rfl⟩, ⟨rfl, rfl⟩, rfl⟩
  · exact (memRead_memWrite s ba ba (s.readReg r) hwf).trans (if_pos rfl)
  · rw [readReg_writeReg, memWrite_readReg, advance_readReg]

/-! #### `lis` -/

theorem exec_lis_of_outOfRange (h : s.cfg.memWords ≤ (s.pc + 4#32).toNat / 4) :
    exec (.lis r) s = .fault (.outOfRangeMemoryAccess (s.pc + 4#32) { s with pc := s.pc + 4#32 }) :=
  execLis_of_not_inRange fun hr => absurd ((inRange_iff s _).1 hr) (Nat.not_lt.2 h)

theorem exec_lis_reads (h : (s.pc + 4#32).toNat / 4 < s.cfg.memWords) :
    ∃ t, exec (.lis r) s = .next t ∧ t.pc = s.pc + 8#32 ∧ RegWritten r (s.memRead (s.pc + 4#32)) s t ∧
      HiLoKept s t ∧ MemKept s t ∧ IoKept s t ∧ CfgKept s t := by
  have hr : s.inRange (s.pc + 4#32) = true := (inRange_iff s _).2 h
  refine ⟨_, execLis_of_inRange hr, ?_, fun q => ?_, ⟨rfl, rfl⟩, fun _ => rfl, ⟨rfl, rfl⟩, rfl⟩
  · rw [writeReg_pc, setPc_pc, BitVec.add_assoc]
    rfl
  · rw [readReg_writeReg, setPc_readReg, readReg_writeReg, advance_readReg]

end

end Sys2Proof.Machine
end

section
/-! ### How a fetch ends (R143, R150) -/

namespace Sys2Proof.Machine

section
variable {s : State}

/-- When the checks of the fetch pass, the step runs the word at pc. -/
theorem step_of_fetchOk (h : fetchOk s = true) : step s = runWord s (s.memRead s.pc) := by
  obtain ⟨ha, hh, hr⟩ := (fetchOk_iff_checks s).1 h
  rw [step, cycle, if_pos ((aligned_iff s.pc).2 ha), if_neg hh, if_pos ((inRange_iff s s.pc).2 hr), fetchWord]

theorem step_of_decode_ok {i : Instr} (h : fetchOk s = true)
    (hd : decode s.cfg.opcodes (s.memRead s.pc) = .ok i) : step s = exec i s := by
  rw [step_of_fetchOk h, runWord, hd]

theorem step_of_decode_error {e : BadSlot} (h : fetchOk s = true)
    (hd : decode s.cfg.opcodes (s.memRead s.pc) = .error e) :
    step s = .fault (.invalidInstruction s.pc { s with pc := s.pc + 4#32 }) := by
  rw [step_of_fetchOk h, runWord, hd]
  rfl

theorem step_of_outOfRange (ha : s.pc.toNat % 4 = 0) (hh : s.pc ≠ s.cfg.haltAddr)
    (hr : s.cfg.memWords ≤ s.pc.toNat / 4) : step s = .fault (.outOfRangeInstructionFetch s.pc s) := by
  rw [step, cycle, if_pos ((aligned_iff s.pc).2 ha), if_neg hh,
    if_neg fun h => absurd ((inRange_iff s s.pc).1 h) (Nat.not_lt.2 hr)]
  rfl

end

/-- Settles O42: the intercepts of `lw` and `sw` compare with the other address, and those of `lis` and of the fetch do
not exist, so each access is decided by the range and alignment checks. -/
theorem otherMmioAccessesAreOrdinary : Obligations.OtherMmioAccessesAreOrdinary := by
  unfold Obligations.OtherMmioAccessesAreOrdinary
  intro s b r imm hne
  refine ⟨fun hba => ⟨?_, ?_, ?_⟩, fun hba => ⟨?_, ?_, ?_⟩, fun m _ => ⟨?_, ?_⟩⟩
  · exact exec_lw_of_outOfRange hba hne
  · exact exec_lw_of_unaligned hba hne
  · exact exec_lw_loads hba hne
  · exact exec_sw_of_outOfRange hba hne.symm
  · exact exec_sw_of_unaligned hba hne.symm
  · exact fun hwf => exec_sw_stores hwf hba hne.symm
  · rintro rfl
    exact ⟨exec_lis_of_outOfRange, exec_lis_reads⟩
  · rintro rfl ha hh
    refine ⟨step_of_outOfRange ha hh, fun hr => ?_⟩
    have hf : fetchOk s = true := (fetchOk_iff_checks s).2 ⟨ha, hh, hr⟩
    exact ⟨fun _ => step_of_decode_ok hf, fun _ => step_of_decode_error hf⟩

end Sys2Proof.Machine
end

section
/-! ### A store is seen by loads, by fetches and by `lis` (R80, R83) -/

namespace Sys2Proof.Machine

/-- Aligned addresses of the same word are the same address. -/
theorem wordAddr_eq_iff {a b : Word} (ha : a.toNat % 4 = 0) (hb : b.toNat % 4 = 0) :
    wordAddr a = wordAddr b ↔ a = b := by
  refine ⟨fun h => BitVec.eq_of_toNat_eq ?_, fun h => h ▸ rfl⟩
  rw [← four_mul_wordAddr a ha, ← four_mul_wordAddr b hb, h]

/-- The destination of a write, if it is not `x[0]`, reads the value written. -/
theorem RegWritten.readReg_dest {d : Reg} {v : Word} {s t : State} (h : RegWritten d v s t) (hd : d ≠ 0#5) :
    t.readReg d = v := by
  rw [h d, if_neg hd, if_pos rfl]

section
variable {s t u : State} {b r : Reg} {imm : Word}

/-- What a completed `sw` to memory guarantees to every later state that still has its memory and configuration: the
address is in range and aligned, and an aligned read gives the register stored at that address and the old word at any
other. -/
theorem memRead_after_sw (hwf : s.mem.wf) (hm : effectiveAddress s b imm ≠ s.cfg.mmioOutAddr)
    (h : exec (.sw b r imm) s = .next t) (hmem : u.mem = t.mem) (hcfg : u.cfg = t.cfg) :
    u.cfg = s.cfg ∧ (effectiveAddress s b imm).toNat / 4 < u.cfg.memWords ∧
      (effectiveAddress s b imm).toNat % 4 = 0 ∧
      ∀ a : Word, a.toNat % 4 = 0 →
        u.memRead a = if a = effectiveAddress s b imm then s.readReg r else s.memRead a := by
  obtain ⟨hr, ha, rfl⟩ := exec_sw_next hm h
  have cfg_eq : u.cfg = s.cfg := hcfg
  refine ⟨cfg_eq, cfg_eq ▸ hr, ha, fun a haa => ?_⟩
  calc u.memRead a = (s.memWrite (effectiveAddress s b imm) (s.readReg r)).memRead a :=
        congrArg (Memory.readWord · (wordAddr a)) hmem
    _ = if a = effectiveAddress s b imm then s.readReg r else s.memRead a := by
        simp only [memRead_memWrite _ _ _ _ hwf, wordAddr_eq_iff haa ha]

end

/-- Settles O43: the load reads the memory that the store left, at an aligned address. -/
theorem loadReturnsLastStore : Obligations.LoadReturnsLastStore := by
  unfold Obligations.LoadReturnsLastStore
  intro s t u b r b' d imm imm' hwf hm h hmem hcfg hd hin hr ha
  obtain ⟨-, -, -, read⟩ := memRead_after_sw hwf hm h hmem hcfg
  obtain ⟨v, e, -, reg, -⟩ := exec_lw_loads (r := d) rfl hin hr ha
  exact ⟨v, e, (reg.readReg_dest hd).trans (read _ ha)⟩

/-- Settles O44: the fetch and the `lis` read the memory that the store left, at the store's own address. -/
theorem storeSeenByFetchAndLis : Obligations.StoreSeenByFetchAndLis := by
  unfold Obligations.StoreSeenByFetchAndLis
  intro s t b r imm hwf hm h
  refine ⟨fun u hmem hcfg hpc hhalt => ?_, fun u d hmem hcfg hpc hd => ?_⟩
  · obtain ⟨cfg_eq, hr, ha, read⟩ := memRead_after_sw hwf hm h hmem hcfg
    have seen : u.memRead u.pc = s.readReg r := by rw [hpc, read _ ha, if_pos rfl]
    have hf : fetchOk u = true := (fetchOk_iff_checks u).2 ⟨hpc ▸ ha, hhalt, hpc ▸ hr⟩
    rw [← cfg_eq, ← seen]
    exact ⟨fun _ => step_of_decode_ok hf, fun _ => step_of_decode_error hf⟩
  · obtain ⟨-, hr, ha, read⟩ := memRead_after_sw hwf hm h hmem hcfg
    have seen : u.memRead (u.pc + 4#32) = s.readReg r := by rw [hpc, read _ ha, if_pos rfl]
    obtain ⟨v, e, -, reg, -⟩ := exec_lis_reads (r := d) (hpc ▸ hr)
    exact ⟨v, e, (reg.readReg_dest hd).trans seen⟩

end Sys2Proof.Machine
end

section
/-! ### The dump of a loaded image is the image (R74, R342) -/

namespace Sys2Proof.Machine

/-- The big-endian bytes of a word made of four bytes are those bytes. -/
theorem wordBytes_append (b0 b1 b2 b3 : Byte) : wordBytes (b0 ++ b1 ++ b2 ++ b3) = [b0, b1, b2, b3] := by
  simp only [wordBytes, BitVec.extractLsb'_append_eq_ite]
  simp

/-- The words of an image, written out big-endian, are the image. -/
theorem flatMap_wordBytes_imageWords {image : List Byte} {ws : List Word} (h : imageWords image = some ws) :
    ws.flatMap wordBytes = image := by
  induction image using imageWords.induct generalizing ws with
  | case1 =>
    cases h
    rfl
  | case2 b0 b1 b2 b3 rest ih =>
    obtain ⟨ws', hws, rfl⟩ := Option.map_eq_some_iff.1 h
    rw [List.flatMap_cons, ih hws, wordBytes_append]
    rfl
  | case3 l h1 h2 =>
    rw [imageWords] at h
    · cases h
    · exact h1
    · exact h2

/-- A dump of consecutive words that memory holds is those words, big-endian. -/
theorem dumpWords_eq_flatMap (m : Memory) (ws : List Word) (k : Nat)
    (h : ∀ j w, ws[j]? = some w → m.readWord (k + j) = w) : dumpWords m k ws.length = ws.flatMap wordBytes := by
  induction ws generalizing k with
  | nil => rfl
  | cons w ws ih =>
    have head : m.readWord k = w := h 0 w rfl
    have tail : dumpWords m (k + 1) ws.length = ws.flatMap wordBytes := ih (k + 1) fun j v hj => by
      rw [Nat.add_right_comm, Nat.add_assoc]
      exact h (j + 1) v hj
    rw [List.length_cons, dumpWords, head, tail, List.flatMap_cons]

/-- Words placed in a canonical memory are dumped as they are, big-endian. -/
theorem dumpWords_placeWords (m : Memory) (ws : List Word) (k : Nat) (hwf : m.wf) :
    dumpWords (placeWords m k ws) k ws.length = ws.flatMap wordBytes :=
  dumpWords_eq_flatMap _ ws k fun j w hj => by
    rw [readWord_placeWords ws m k (k + j) hwf, if_pos (Nat.le_add_right k j), Nat.add_sub_cancel_left, hj]
    rfl

/-- A launch that answers has loaded the image into a created machine. -/
theorem launch_ok {bytes : Nat} {cfg : Config} {input image : List Byte} {t : State}
    (h : launch bytes cfg input image = .ok t) :
    ∃ s, create bytes cfg input = .ok s ∧ load image s = .ok t := by
  unfold launch at h
  split at h
  · cases h
  · next s created => exact ⟨s, created, h⟩

/-- A load that answers has placed the image's words at `LOAD_WORD` and kept the configuration. -/
theorem mem_of_load {image : List Byte} {ws : List Word} {s t : State} (hws : imageWords image = some ws)
    (h : load image s = .ok t) : t.mem = placeWords s.mem s.cfg.loadWord ws ∧ t.cfg = s.cfg := by
  simp only [load, hws] at h
  split_ifs at h
  cases h
  exact ⟨rfl, rfl⟩

/-- Settles O48: a dump's bytes are those of its words, and the words of a loaded image are the ones that memory holds
where it was placed. -/
theorem dumpIsBigEndianAndReturnsImage : Obligations.DumpIsBigEndianAndReturnsImage := by
  unfold Obligations.DumpIsBigEndianAndReturnsImage
  refine ⟨fun s k n => ⟨length_dumpWords s.mem k n, fun j hj => ?_⟩, fun bytes cfg input image t n hlen h => ?_⟩
  · have byte (b : Nat) (hb : b < 4) := getD_dumpWords s.mem k n j b hj hb
    exact ⟨byte 0 (by decide), byte 1 (by decide), byte 2 (by decide), byte 3 (by decide)⟩
  · obtain ⟨s, created, loaded⟩ := launch_ok h
    obtain ⟨ws, hws, hn, -⟩ := imageWords_some image n hlen
    obtain ⟨hmem, hcfg⟩ := mem_of_load hws loaded
    calc t.dump t.cfg.loadWord n
        = dumpWords (placeWords s.mem s.cfg.loadWord ws) s.cfg.loadWord ws.length := by
          rw [State.dump, hmem, hcfg, hn]
      _ = ws.flatMap wordBytes := dumpWords_placeWords s.mem ws _ (inv_of_create created).mem_wf
      _ = image := flatMap_wordBytes_imageWords hws

end Sys2Proof.Machine
end

/-! # Encoding (30_encoding.md): the descriptor, the decoder and the encoder -/

section
/-! ### The descriptor of a word (R102 to R104) and what decoding it answers (R109, R111) -/

namespace Sys2Proof

section
variable {m : OpcodeMap} {w : Word} {i : Instr}

theorem descriptor_of_opcode_zero (h : opcodeField w = 0#6) :
    descriptor w = .registerForm (dField w) (sField w) (tField w) (functField w) := if_pos h

theorem descriptor_of_opcode_ne_zero (h : opcodeField w ≠ 0#6) :
    descriptor w = .immediateForm (sField w) (tField w) (opcodeField w) (immField w) := if_neg h

/-- A word with an immediate-form descriptor has a nonzero opcode, and the descriptor holds the word's fields. -/
theorem fields_of_immediateForm {s t : Reg} {c : Code} {imm : Word} (h : descriptor w = .immediateForm s t c imm) :
    opcodeField w ≠ 0#6 ∧ s = sField w ∧ t = tField w ∧ c = opcodeField w ∧ imm = immField w := by
  by_cases h0 : opcodeField w = 0#6
  · cases (descriptor_of_opcode_zero h0).symm.trans h
  · cases (descriptor_of_opcode_ne_zero h0).symm.trans h
    exact ⟨h0, rfl, rfl, rfl, rfl⟩

/-- The immediate field is a signed 16-bit value (R104). -/
theorem immField_bounds (w : Word) : -32768 ≤ (immField w).toInt ∧ (immField w).toInt ≤ 32767 := by
  have low := BitVec.le_toInt (w.extractLsb' 0 16)
  have high := BitVec.toInt_lt (x := w.extractLsb' 0 16)
  rw [immField, BitVec.toInt_signExtend_of_le (by decide)]
  omega

/-- What a register-form word decodes to is decided by the slot at its function code. -/
theorem decode_of_opcode_zero (h : opcodeField w = 0#6) {op : ROp} (hop : rtab m (functField w) = some op) :
    decode m w = .ok (op.instr (dField w) (sField w) (tField w)) := by
  rw [decode, descriptor_of_opcode_zero h, dispatch, hop]

/-- A word that decodes selects a registered slot of one of the two tables, and the instruction has the operation
registered there and the word's fields. -/
theorem decode_ok (h : decode m w = .ok i) :
    (opcodeField w = 0#6 ∧ ∃ op, rtab m (functField w) = some op ∧
      i = op.instr (dField w) (sField w) (tField w)) ∨
    (opcodeField w ≠ 0#6 ∧ ∃ op, itab m (opcodeField w) = some op ∧
      i = op.instr (sField w) (tField w) (immField w)) := by
  by_cases h0 : opcodeField w = 0#6
  · rw [decode, descriptor_of_opcode_zero h0, dispatch] at h
    cases hop : rtab m (functField w) with
    | none => rw [hop] at h; cases h
    | some op => rw [hop] at h; cases h; exact .inl ⟨h0, op, rfl, rfl⟩
  · rw [decode, descriptor_of_opcode_ne_zero h0, dispatch] at h
    cases hop : itab m (opcodeField w) with
    | none => rw [hop] at h; cases h
    | some op => rw [hop] at h; cases h; exact .inr ⟨h0, op, rfl, rfl⟩

end

/-- Settles O1: the opcode field decides the form, and each form has the fields of its equation. -/
theorem descriptorFormsAndFields : Obligations.DescriptorFormsAndFields := by
  unfold Obligations.DescriptorFormsAndFields
  intro w
  refine ⟨⟨fun h => ⟨_, _, _, _, descriptor_of_opcode_zero h⟩, fun ⟨d, s, t, c, h⟩ => ?_⟩,
    ⟨fun h => ⟨_, _, _, _, descriptor_of_opcode_ne_zero h⟩, fun ⟨s, t, c, imm, h⟩ => ?_⟩,
    descriptor_of_opcode_zero, descriptor_of_opcode_ne_zero, fun s t c imm h => ?_⟩
  · by_contra h0
    cases (descriptor_of_opcode_ne_zero h0).symm.trans h
  · exact (fields_of_immediateForm h).1
  · obtain ⟨-, -, -, -, rfl⟩ := fields_of_immediateForm h
    exact immField_bounds w

/-- Settles O6: each word is decoded by evaluation. -/
theorem writtenOutWordsDecode : Obligations.WrittenOutWordsDecode := by
  unfold Obligations.WrittenOutWordsDecode
  decide

end Sys2Proof
end

section
/-! ### An encoded instruction decodes to itself (R101, R113) -/

namespace Sys2Proof

section
variable {m : OpcodeMap} (hm : m.wf = true)
include hm

/-- A register-form word with an operation's function code decodes to that operation. -/
theorem decode_rWord (op : ROp) (d s t : Reg) : decode m (rWord s t d (m.funct op)) = .ok (op.instr d s t) := by
  rw [decode, Laws.descriptor_rWord, dispatch, rtab_funct m hm op]

/-- An immediate-form word with an operation's opcode decodes to that operation. -/
theorem decode_iWord (op : IOp) (s t : Reg) {imm : Word} (h : immWf imm = true) :
    decode m (iWord (m.opcode op) s t imm) = .ok (op.instr s t imm) := by
  rw [decode, Laws.descriptor_iWord m hm op s t imm h, dispatch, itab_opcode m hm op]

theorem decode_encode {i : Instr} (hi : i.wf = true) : decode m (encode m i) = .ok i := by
  cases i with
  | add d s t => exact decode_rWord hm .add d s t
  | sub d s t => exact decode_rWord hm .sub d s t
  | mult s t => exact decode_rWord hm .mult 0#5 s t
  | multu s t => exact decode_rWord hm .multu 0#5 s t
  | div s t => exact decode_rWord hm .div 0#5 s t
  | divu s t => exact decode_rWord hm .divu 0#5 s t
  | mfhi d => exact decode_rWord hm .mfhi d 0#5 0#5
  | mflo d => exact decode_rWord hm .mflo d 0#5 0#5
  | lis d => exact decode_rWord hm .lis d 0#5 0#5
  | slt d s t => exact decode_rWord hm .slt d s t
  | sltu d s t => exact decode_rWord hm .sltu d s t
  | jr s => exact decode_rWord hm .jr 0#5 s 0#5
  | jalr s => exact decode_rWord hm .jalr 0#5 s 0#5
  | beq s t imm => exact decode_iWord hm .beq s t hi
  | bne s t imm => exact decode_iWord hm .bne s t hi
  | lw s t imm => exact decode_iWord hm .lw s t hi
  | sw s t imm => exact decode_iWord hm .sw s t hi

end

/-- Settles O4: the encoder writes the code at which the operation is registered, in a slot that holds no other
operation of a well-formed map. -/
theorem encodedInstructionDecodesBack : Obligations.EncodedInstructionDecodesBack := by
  unfold Obligations.EncodedInstructionDecodesBack
  exact fun m i hm hi => decode_encode hm hi

end Sys2Proof
end

section
/-! ### The ignored bits of a word (R106, R113), and the word that its fields make -/

namespace Sys2Proof

open Machine

/-! #### A word is its fields, joined -/

/-- Two adjacent fields join into one. -/
theorem extractLsb'_join (w : Word) (lo n k : Nat) :
    w.extractLsb' (lo + n) k ++ w.extractLsb' lo n = w.extractLsb' lo (k + n) :=
  BitVec.extractLsb'_append_extractLsb'_eq_extractLsb' rfl

/-- A register-form word with a zero `shamt` field is made of its four other fields. -/
theorem rWord_fields {w : Word} (hop : opcodeField w = 0#6) (hsh : w.extractLsb' 6 5 = 0#5) :
    rWord (sField w) (tField w) (dField w) (functField w) = w := by
  rw [rWord, ← hop, ← hsh]
  unfold opcodeField sField tField dField functField
  rw [extractLsb'_join w 21 5, extractLsb'_join w 16 5, extractLsb'_join w 11 5, extractLsb'_join w 6 5,
    extractLsb'_join w 0 6]
  exact BitVec.extractLsb'_eq_self

/-- Sign extension keeps the 16 bits that it extends. -/
theorem extractLsb'_immField (w : Word) : (immField w).extractLsb' 0 16 = w.extractLsb' 0 16 := by
  apply BitVec.eq_of_getLsbD_eq
  intro k hk
  have hk' : k < 32 := by omega
  rw [BitVec.getLsbD_extractLsb', Nat.zero_add, immField, BitVec.getLsbD_signExtend, if_pos hk,
    decide_eq_true hk, decide_eq_true hk', Bool.true_and, Bool.true_and]

/-- A word is made of its opcode, its two register fields and its immediate. -/
theorem iWord_fields (w : Word) : iWord (opcodeField w) (sField w) (tField w) (immField w) = w := by
  rw [iWord, extractLsb'_immField]
  unfold opcodeField sField tField
  rw [extractLsb'_join w 21 5, extractLsb'_join w 16 5, extractLsb'_join w 0 16]
  exact BitVec.extractLsb'_eq_self

/-! #### The fields of a masked word -/

@[simp] theorem opcodeField_and (w v : Word) : opcodeField (w &&& v) = opcodeField w &&& opcodeField v :=
  BitVec.extractLsb'_and
@[simp] theorem sField_and (w v : Word) : sField (w &&& v) = sField w &&& sField v := BitVec.extractLsb'_and
@[simp] theorem tField_and (w v : Word) : tField (w &&& v) = tField w &&& tField v := BitVec.extractLsb'_and
@[simp] theorem dField_and (w v : Word) : dField (w &&& v) = dField w &&& dField v := BitVec.extractLsb'_and
@[simp] theorem functField_and (w v : Word) : functField (w &&& v) = functField w &&& functField v :=
  BitVec.extractLsb'_and

/-- Two words that do not differ in the bits of a mask are equal under the mask. -/
theorem and_eq_and_of_xor_and {w v k : Word} (h : (w ^^^ v) &&& k = 0#32) : w &&& k = v &&& k := by
  have distrib : (w ^^^ v) &&& k = (w &&& k) ^^^ (v &&& k) := BitVec.eq_of_toNat_eq Nat.and_xor_distrib_right
  exact BitVec.xor_eq_zero_iff.1 (distrib ▸ h)

/-- A register-form word under a mask that keeps the function code and not `shamt` is made of its masked operands and
its function code. -/
theorem and_eq_rWord {w k : Word} (h : opcodeField w = 0#6) (hfunct : functField k = BitVec.allOnes 6)
    (hshamt : k.extractLsb' 6 5 = 0#5) :
    w &&& k = rWord (sField w &&& sField k) (tField w &&& tField k) (dField w &&& dField k) (functField w) := by
  have hop : opcodeField (w &&& k) = 0#6 := by rw [opcodeField_and, h, BitVec.zero_and]
  have hsh : (w &&& k).extractLsb' 6 5 = 0#5 := by rw [BitVec.extractLsb'_and, hshamt, BitVec.and_zero]
  rw [← rWord_fields hop hsh, sField_and, tField_and, dField_and, functField_and, hfunct, BitVec.and_allOnes]

/-! #### The mask of an operation -/

/-- The bits of a word that a register-form operation depends on, whatever its operands (R113). -/
def ROp.careMask (op : ROp) : Word := Machine.careMask (op.instr 0#5 0#5 0#5)

theorem ROp.careMask_instr (op : ROp) (d s t : Reg) : Machine.careMask (op.instr d s t) = op.careMask := by
  cases op <;> rfl

theorem IOp.careMask_instr (op : IOp) (s t : Reg) (imm : Word) :
    Machine.careMask (op.instr s t imm) = BitVec.allOnes 32 := by
  cases op <;> rfl

/-- Every register-form operation depends on the opcode and the function code, and ignores `shamt` (R106). -/
theorem ROp.codes_careMask (op : ROp) : opcodeField op.careMask = BitVec.allOnes 6 ∧
    functField op.careMask = BitVec.allOnes 6 ∧ op.careMask.extractLsb' 6 5 = 0#5 := by
  cases op <;> decide

theorem reg_and_thirtyOne (r : Reg) : r &&& 31#5 = r := BitVec.and_allOnes

/-- An operation's mask keeps its operands. -/
theorem ROp.instr_and_careMask (op : ROp) (w : Word) :
    op.instr (dField (w &&& op.careMask)) (sField (w &&& op.careMask)) (tField (w &&& op.careMask)) =
      op.instr (dField w) (sField w) (tField w) := by
  rw [dField_and, sField_and, tField_and]
  cases op <;> simp [ROp.instr, ROp.careMask, Machine.careMask, dField, sField, tField, reg_and_thirtyOne]

/-- The encoder writes an operation's operands, and zero in the fields outside its mask. -/
theorem encode_rInstr (m : OpcodeMap) (op : ROp) (d s t : Reg) :
    encode m (op.instr d s t) = rWord (s &&& sField op.careMask) (t &&& tField op.careMask)
      (d &&& dField op.careMask) (m.funct op) := by
  cases op <;> simp [ROp.instr, ROp.careMask, Machine.careMask, dField, sField, tField, reg_and_thirtyOne, encode,
    OpcodeMap.funct]

theorem encode_iInstr (m : OpcodeMap) (op : IOp) (s t : Reg) (imm : Word) :
    encode m (op.instr s t imm) = iWord (m.opcode op) s t imm := by
  cases op <;> rfl

theorem ROp.wf_instr (op : ROp) (d s t : Reg) : (op.instr d s t).wf = true := by cases op <;> rfl

theorem IOp.wf_instr (op : IOp) (s t : Reg) (imm : Word) : (op.instr s t imm).wf = immWf imm := by cases op <;> rfl

/-! #### The two directions -/

/-- Settles O5: a decoded word's operands are its fields, which the encoder joins again where the mask keeps them. -/
theorem decodedWordEncodesBack : Obligations.DecodedWordEncodesBack := by
  unfold Obligations.DecodedWordEncodesBack
  intro m w i h
  obtain ⟨h0, op, hop, rfl⟩ | ⟨-, op, hop, rfl⟩ := decode_ok h
  · refine ⟨op.wf_instr _ _ _, ?_⟩
    obtain ⟨-, hfunct, hshamt⟩ := op.codes_careMask
    rw [encode_rInstr, op.careMask_instr, and_eq_rWord h0 hfunct hshamt, rtab_some m _ op hop]
  · obtain ⟨low, high⟩ := immField_bounds w
    refine ⟨?_, ?_⟩
    · rw [op.wf_instr, immWf, decide_eq_true low, decide_eq_true high, Bool.and_self]
    · rw [encode_iInstr, op.careMask_instr, itab_some m _ op hop, iWord_fields, BitVec.and_allOnes]

/-- Settles O3: the words agree under the operation's mask, so they have the same codes and the same operands; an
immediate-form word has no ignored bits. -/
theorem ignoredBitsDoNotMatter : Obligations.IgnoredBitsDoNotMatter := by
  unfold Obligations.IgnoredBitsDoNotMatter
  intro m w w' i h hx
  obtain ⟨h0, op, hop, rfl⟩ | ⟨-, op, -, rfl⟩ := decode_ok h
  · rw [op.careMask_instr] at hx
    have agree : w' &&& op.careMask = w &&& op.careMask := and_eq_and_of_xor_and hx
    obtain ⟨hopcode, hfunct, -⟩ := op.codes_careMask
    have opcode : opcodeField w' = opcodeField w := by
      simpa only [opcodeField_and, hopcode, BitVec.and_allOnes] using congrArg opcodeField agree
    have funct : functField w' = functField w := by
      simpa only [functField_and, hfunct, BitVec.and_allOnes] using congrArg functField agree
    rw [decode_of_opcode_zero (opcode.trans h0) (funct ▸ hop), ← op.instr_and_careMask w', agree,
      op.instr_and_careMask w]
  · rw [op.careMask_instr, BitVec.and_allOnes, BitVec.xor_eq_zero_iff] at hx
    rwa [hx]

end Sys2Proof
end

section
/-! ### A word outside the opcode table (R111, R112) -/

namespace Sys2Proof.Machine

/-- The opcode table lists every register-form operation by its function code, with a zero opcode. -/
theorem rRow_mem_tableRows (op : ROp) :
    (0xFC00003F#32, rWord 0#5 0#5 0#5 (OpcodeMap.default.funct op)) ∈ tableRows := by
  cases op <;> decide

/-- The opcode table lists every immediate-form operation by its opcode. -/
theorem iRow_mem_tableRows (op : IOp) :
    (0xFC000000#32, iWord (OpcodeMap.default.opcode op) 0#5 0#5 0#32) ∈ tableRows := by
  cases op <;> decide

/-- A register-form word under its row's mask is its function code alone. -/
theorem and_rRow_mask {w : Word} (h : opcodeField w = 0#6) :
    w &&& 0xFC00003F#32 = rWord 0#5 0#5 0#5 (functField w) := by
  have hs : sField 0xFC00003F#32 = 0#5 := rfl
  have ht : tField 0xFC00003F#32 = 0#5 := rfl
  have hd : dField 0xFC00003F#32 = 0#5 := rfl
  rw [and_eq_rWord h rfl rfl, hs, ht, hd, BitVec.and_zero, BitVec.and_zero, BitVec.and_zero]

/-- A word under the mask of an immediate-form row is its opcode alone. -/
theorem and_iRow_mask (w : Word) : w &&& 0xFC000000#32 = iWord (opcodeField w) 0#5 0#5 0#32 := by
  have ho : opcodeField 0xFC000000#32 = BitVec.allOnes 6 := rfl
  have hs : sField 0xFC000000#32 = 0#5 := rfl
  have ht : tField 0xFC000000#32 = 0#5 := rfl
  have himm : (0xFC000000#32).extractLsb' 0 16 = 0#16 := rfl
  rw [← iWord_fields (w &&& 0xFC000000#32), opcodeField_and, sField_and, tField_and, ho, hs, ht, BitVec.and_allOnes,
    BitVec.and_zero, BitVec.and_zero, immField, BitVec.extractLsb'_and, himm, BitVec.and_zero]
  rfl

/-- A word that decodes under the default map matches a row of the opcode table. -/
theorem exists_row_of_decode_ok {w : Word} {i : Instr} (h : decode OpcodeMap.default w = .ok i) :
    ∃ row ∈ tableRows, w &&& row.1 = row.2 := by
  obtain ⟨h0, op, hop, -⟩ | ⟨-, op, hop, -⟩ := decode_ok h
  · refine ⟨_, rRow_mem_tableRows op, ?_⟩
    rw [rtab_some _ _ op hop]
    exact and_rRow_mask h0
  · refine ⟨_, iRow_mem_tableRows op, ?_⟩
    rw [itab_some _ _ op hop]
    exact and_iRow_mask w

/-- Settles O2: a word that matches no row decodes to no instruction, so its slot's handler raises the status; the
slots are counted, and a zero opcode gives the other form. -/
theorem unlistedEncodingIsInvalid : Obligations.UnlistedEncodingIsInvalid := by
  unfold Obligations.UnlistedEncodingIsInvalid
  refine ⟨fun s hmap hf hrows => ?_, by decide, by decide, by decide, fun w s t imm h => ?_⟩
  · cases hd : decode s.cfg.opcodes (s.memRead s.pc) with
    | error e => exact step_of_decode_error hf hd
    | ok i =>
      obtain ⟨row, hmem, hmatch⟩ := exists_row_of_decode_ok (hmap ▸ hd)
      exact absurd hmatch (hrows row hmem)
  · obtain ⟨hne, -, -, hzero, -⟩ := fields_of_immediateForm h
    exact hne hzero.symm

end Sys2Proof.Machine
end

/-! # The step cycle (40_step_cycle.md): how a step ends, what it sees of the input, and the run of steps -/

section
/-! ### The stops of the fetch and of the handlers, and the commit (R140 to R151) -/

namespace Sys2Proof.Machine

/-- The stops of the fetch from `s`, each with its check failed and those before it passed, and with the state as it
was (R141 to R143). -/
inductive FetchStop (s : State) : Fault → Prop where
  | unaligned (ha : s.pc.toNat % 4 ≠ 0) : FetchStop s (.unalignedInstructionFetch s.pc s)
  | halted (ha : s.pc.toNat % 4 = 0) (hh : s.pc = s.cfg.haltAddr) : FetchStop s (.halted s.pc s)
  | outOfRange (ha : s.pc.toNat % 4 = 0) (hh : s.pc ≠ s.cfg.haltAddr) (hr : s.cfg.memWords ≤ s.pc.toNat / 4) :
      FetchStop s (.outOfRangeInstructionFetch s.pc s)

/-- The stops that an instruction can raise from `s`, each under its condition, with pc advanced and nothing else
changed (R64, R65, R69, R151, R182, R183). -/
inductive HandlerStop (s : State) : Instr → Fault → Prop where
  | divByZero {a b : Reg} (hz : (s.readReg b).toInt = 0) :
      HandlerStop s (.div a b) (.invalidInstruction s.pc s.advance)
  | divOverflow {a b : Reg} (ho : (s.readReg a).toInt = -2147483648 ∧ (s.readReg b).toInt = -1) :
      HandlerStop s (.div a b) (.invalidInstruction s.pc s.advance)
  | divuByZero {a b : Reg} (hz : (s.readReg b).toNat = 0) :
      HandlerStop s (.divu a b) (.invalidInstruction s.pc s.advance)
  | lisOutOfRange {d : Reg} (hr : s.cfg.memWords ≤ (s.pc + 4#32).toNat / 4) :
      HandlerStop s (.lis d) (.outOfRangeMemoryAccess (s.pc + 4#32) s.advance)
  | lwOutOfRange {b t : Reg} {imm : Word} (hm : effectiveAddress s b imm ≠ s.cfg.mmioInAddr)
      (hr : s.cfg.memWords ≤ (effectiveAddress s b imm).toNat / 4) :
      HandlerStop s (.lw b t imm) (.outOfRangeMemoryAccess (effectiveAddress s b imm) s.advance)
  | lwUnaligned {b t : Reg} {imm : Word} (hm : effectiveAddress s b imm ≠ s.cfg.mmioInAddr)
      (hr : (effectiveAddress s b imm).toNat / 4 < s.cfg.memWords) (ha : (effectiveAddress s b imm).toNat % 4 ≠ 0) :
      HandlerStop s (.lw b t imm) (.unalignedMemoryAccess (effectiveAddress s b imm) s.advance)
  | swOutOfRange {b t : Reg} {imm : Word} (hm : effectiveAddress s b imm ≠ s.cfg.mmioOutAddr)
      (hr : s.cfg.memWords ≤ (effectiveAddress s b imm).toNat / 4) :
      HandlerStop s (.sw b t imm) (.outOfRangeMemoryAccess (effectiveAddress s b imm) s.advance)
  | swUnaligned {b t : Reg} {imm : Word} (hm : effectiveAddress s b imm ≠ s.cfg.mmioOutAddr)
      (hr : (effectiveAddress s b imm).toNat / 4 < s.cfg.memWords) (ha : (effectiveAddress s b imm).toNat % 4 ≠ 0) :
      HandlerStop s (.sw b t imm) (.unalignedMemoryAccess (effectiveAddress s b imm) s.advance)

section
variable {s : State} {i : Instr} {f : Fault}

/-! #### How the fetch and an instruction stop -/

theorem FetchStop.final_eq (h : FetchStop s f) : f.final = s := by cases h <;> rfl

theorem FetchStop.fetchOk_eq_false (h : FetchStop s f) : fetchOk s = false := by
  rw [Bool.eq_false_iff, Ne, fetchOk_iff_checks]
  rintro ⟨aligned, running, inRange⟩
  cases h with
  | unaligned ha => exact ha aligned
  | halted _ hh => exact running hh
  | outOfRange _ _ hr => exact absurd inRange (Nat.not_lt.2 hr)

/-- The step ends with the stop of the fetch whose check fails first. -/
theorem FetchStop.step_eq (h : FetchStop s f) : step s = .fault f := by
  cases h with
  | unaligned ha => exact if_neg fun hal => ha ((aligned_iff s.pc).1 hal)
  | halted ha hh => exact (if_pos ((aligned_iff s.pc).2 ha)).trans (if_pos hh)
  | outOfRange ha hh hr => exact step_of_outOfRange ha hh hr

theorem HandlerStop.final_eq (h : HandlerStop s i f) : f.final = s.advance := by cases h <;> rfl

/-- A checked access that would complete stops on its range or on its alignment, with the state as it was. -/
theorem checkedAccess_complete_fault {a : Word} {u : State} (h : checkedAccess s a (complete u) = .fault f) :
    (s.cfg.memWords ≤ a.toNat / 4 ∧ f = .outOfRangeMemoryAccess a s) ∨
    (a.toNat / 4 < s.cfg.memWords ∧ a.toNat % 4 ≠ 0 ∧ f = .unalignedMemoryAccess a s) := by
  obtain ⟨hr, e⟩ | ⟨hr, ha, e⟩ | ⟨-, -, e⟩ := checkedAccess_cases s a (complete u) <;> rw [e] at h
  · cases h
    exact .inl ⟨Nat.not_lt.1 hr, rfl⟩
  · cases h
    exact .inr ⟨hr, ha, rfl⟩
  · exact absurd h (complete_ne_fault u f)

theorem execDiv_fault {a b : Reg} (h : execDiv a b s = .fault f) : HandlerStop s (.div a b) f := by
  by_cases hz : (s.readReg b).toInt = 0
  · cases (execDiv_of_zero hz).symm.trans h
    exact .divByZero hz
  · by_cases ho : (s.readReg a).toInt = -2147483648 ∧ (s.readReg b).toInt = -1
    · cases (execDiv_of_overflow hz ho).symm.trans h
      exact .divOverflow ho
    · exact absurd ((execDiv_of_completes hz ho).symm.trans h) (complete_ne_fault _ f)

theorem execDivu_fault {a b : Reg} (h : execDivu a b s = .fault f) : HandlerStop s (.divu a b) f := by
  by_cases hz : (s.readReg b).toNat = 0
  · cases (execDivu_of_zero hz).symm.trans h
    exact .divuByZero hz
  · exact absurd ((execDivu_of_completes hz).symm.trans h) (complete_ne_fault _ f)

theorem execLis_fault {d : Reg} (h : execLis d s = .fault f) : HandlerStop s (.lis d) f := by
  by_cases hr : s.inRange (s.pc + 4#32) = true
  · exact absurd ((execLis_of_inRange hr).symm.trans h) (complete_ne_fault _ f)
  · cases (execLis_of_not_inRange hr).symm.trans h
    exact .lisOutOfRange (Nat.not_lt.1 fun hlt => hr ((inRange_iff s _).2 hlt))

theorem execLw_fault {b t : Reg} {imm : Word} (h : execLw b t imm s = .fault f) : HandlerStop s (.lw b t imm) f := by
  by_cases hm : effectiveAddress s b imm = s.cfg.mmioInAddr
  · cases hin : s.input with
    | nil => exact absurd ((execLw_of_mmio_empty hm hin).symm.trans h) (complete_ne_fault _ f)
    | cons c rest => exact absurd ((execLw_of_mmio_byte hm hin).symm.trans h) (complete_ne_fault _ f)
  · obtain ⟨hr, rfl⟩ | ⟨hr, ha, rfl⟩ := checkedAccess_complete_fault ((execLw_of_not_mmio hm).symm.trans h)
    · exact .lwOutOfRange hm hr
    · exact .lwUnaligned hm hr ha

theorem execSw_fault {b t : Reg} {imm : Word} (h : execSw b t imm s = .fault f) : HandlerStop s (.sw b t imm) f := by
  by_cases hm : effectiveAddress s b imm = s.cfg.mmioOutAddr
  · exact absurd ((execSw_of_mmio hm).symm.trans h) (complete_ne_fault _ f)
  · obtain ⟨hr, rfl⟩ | ⟨hr, ha, rfl⟩ := checkedAccess_complete_fault ((execSw_of_not_mmio hm).symm.trans h)
    · exact .swOutOfRange hm hr
    · exact .swUnaligned hm hr ha

/-- What an instruction that stops has raised: only a division, `lis`, `lw` and `sw` can stop. -/
theorem exec_fault (h : exec i s = .fault f) : HandlerStop s i f := by
  cases i with
  | div a b => exact execDiv_fault h
  | divu a b => exact execDivu_fault h
  | lis d => exact execLis_fault h
  | lw b t imm => exact execLw_fault h
  | sw b t imm => exact execSw_fault h
  | _ => exact absurd h (complete_ne_fault _ f)

/-! #### How a step ends -/

/-- What a step that stops has raised: a stop of the fetch, that of an unregistered slot, or a stop of the decoded
instruction. -/
theorem step_fault (h : step s = .fault f) :
    FetchStop s f ∨
    (fetchOk s = true ∧ (∃ e, decode s.cfg.opcodes (s.memRead s.pc) = .error e) ∧
      f = .invalidInstruction s.pc s.advance) ∨
    ∃ i, Runs s i ∧ HandlerStop s i f := by
  obtain ⟨ha, e⟩ | ⟨ha, hh, e⟩ | ⟨ha, hh, hr, e⟩ | ⟨hok, bad, e⟩ | ⟨i, runs, e⟩ := step_cases s <;> rw [e] at h
  · cases h
    exact .inl (.unaligned ha)
  · cases h
    exact .inl (.halted ha hh)
  · cases h
    exact .inl (.outOfRange ha hh (Nat.not_lt.1 hr))
  · cases h
    exact .inr (.inl ⟨hok, bad, rfl⟩)
  · exact .inr (.inr ⟨i, runs, exec_fault h⟩)

/-- A step that continues has run the decoded instruction to its end. -/
theorem step_next {t : State} (h : step s = .next t) : ∃ i, Runs s i ∧ exec i s = .next t := by
  obtain ⟨-, e⟩ | ⟨-, -, e⟩ | ⟨-, -, -, e⟩ | ⟨-, -, e⟩ | ⟨i, runs, e⟩ := step_cases s <;> rw [e] at h
  · cases h
  · cases h
  · cases h
  · cases h
  · exact ⟨i, runs, h⟩

end

/-- Settles O14: each stop of the fetch is raised where its check fails first, and no handler raises one. -/
theorem fetchStopsExactly : Obligations.FetchStopsExactly := by
  unfold Obligations.FetchStopsExactly
  intro s final v
  refine ⟨⟨fun h => ?_, ?_⟩, ⟨fun h => ?_, ?_⟩, ⟨fun h => ?_, ?_⟩⟩
  · obtain stop | ⟨-, -, ⟨⟩⟩ | ⟨i, -, ⟨⟩⟩ := step_fault h
    cases stop with
    | unaligned ha => exact ⟨ha, rfl, rfl⟩
  · rintro ⟨ha, rfl, rfl⟩
    exact (FetchStop.unaligned ha).step_eq
  · obtain stop | ⟨-, -, ⟨⟩⟩ | ⟨i, -, ⟨⟩⟩ := step_fault h
    cases stop with
    | halted ha hh => exact ⟨ha, hh, rfl, rfl⟩
  · rintro ⟨ha, hh, rfl, rfl⟩
    exact (FetchStop.halted ha hh).step_eq
  · obtain stop | ⟨-, -, ⟨⟩⟩ | ⟨i, -, ⟨⟩⟩ := step_fault h
    cases stop with
    | outOfRange ha hh hr => exact ⟨ha, hh, hr, rfl, rfl⟩
  · rintro ⟨ha, hh, hr, rfl, rfl⟩
    exact (FetchStop.outOfRange ha hh hr).step_eq

/-- Settles O15: the step runs the word at pc, and that word's decoding says what this is. -/
theorem stepRunsDecodedInstruction : Obligations.StepRunsDecodedInstruction := by
  unfold Obligations.StepRunsDecodedInstruction
  exact fun s hok => ⟨fun _ => step_of_decode_ok hok, fun _ => step_of_decode_error hok⟩

/-- Settles O18: every stop of the fetch carries the state as it was, and every stop after it the advanced state. -/
theorem faultsArePrecise : Obligations.FaultsArePrecise := by
  unfold Obligations.FaultsArePrecise
  intro s f h
  obtain stop | ⟨hok, -, rfl⟩ | ⟨i, ⟨hok, -⟩, stop⟩ := step_fault h
  · exact .inl ⟨stop.fetchOk_eq_false, stop.final_eq⟩
  · exact .inr ⟨hok, rfl⟩
  · exact .inr ⟨hok, stop.final_eq⟩

/-- No instruction is refused: each ends by completing or by raising a status. -/
theorem exec_ne_refused (i : Instr) (s : State) (r : Refusal) : exec i s ≠ .refused r := by
  intro h
  obtain ⟨u, e, -⟩ | ⟨f, e, -⟩ := ends_exec i s <;> rw [e] at h
  · exact complete_ne_refused u r h
  · cases h

/-- Every step continues or stops (R155). -/
theorem step_next_or_fault (s : State) : (∃ t, step s = .next t) ∨ ∃ f, step s = .fault f := by
  obtain ⟨-, e⟩ | ⟨-, -, e⟩ | ⟨-, -, -, e⟩ | ⟨-, -, e⟩ | ⟨i, -, e⟩ := step_cases s
  · exact .inr ⟨_, e⟩
  · exact .inr ⟨_, e⟩
  · exact .inr ⟨_, e⟩
  · exact .inr ⟨_, e⟩
  · obtain ⟨u, e', -⟩ | ⟨f, e', -⟩ := ends_exec i s
    · exact .inl ⟨_, e.trans e'⟩
    · exact .inr ⟨f, e.trans e'⟩

/-- Settles O19: an instruction completes or raises a status, so a step continues or stops. -/
theorem nothingIsRefused : Obligations.NothingIsRefused := by
  unfold Obligations.NothingIsRefused
  refine ⟨exec_ne_refused, fun s r h => ?_⟩
  obtain ⟨t, e⟩ | ⟨f, e⟩ := step_next_or_fault s <;> cases e.symm.trans h

/-- Settles O20: a step that completes ends with the commit of its instruction, and a step that stops leaves every
register as it was. -/
theorem registerZeroCommit : Obligations.RegisterZeroCommit := by
  unfold Obligations.RegisterZeroCommit
  refine ⟨fun s t h => ?_, fun s f h => ?_⟩
  · obtain ⟨i, -, completes⟩ := step_next h
    obtain ⟨u, -, rfl⟩ := exec_next completes
    rw [readReg_writeReg, if_pos rfl]
  · obtain ⟨-, unchanged⟩ | ⟨-, advanced⟩ := faultsArePrecise s f h
    · rw [unchanged]
    · rw [advanced]
      exact advance_readReg s 0#5

end Sys2Proof.Machine
end

section
/-! ### Another content of the input channel (R156, R314) -/

namespace Sys2Proof.Machine

section
variable (s : State) (l : List Byte)

/-- The checks of an access do not read the channel, so only the access itself is left to compare. -/
theorem checkedAccess_withInput (a : Word) {access access' : Result}
    (e : access' = mapState (fun v => v.withInput l) access) :
    checkedAccess (s.withInput l) a access' = mapState (fun v => v.withInput l) (checkedAccess s a access) := by
  simp only [checkedAccess, apply_ite (mapState _), e]
  rfl

theorem branchIf_withInput (cond : Bool) (imm : Word) :
    branchIf cond imm (s.withInput l) = mapState (fun v => v.withInput l) (branchIf cond imm s) := by
  cases cond <;> rfl

theorem execDiv_withInput (a b : Reg) :
    execDiv a b (s.withInput l) = mapState (fun v => v.withInput l) (execDiv a b s) := by
  simp only [execDiv, apply_ite (mapState _)]
  rfl

theorem execDivu_withInput (a b : Reg) :
    execDivu a b (s.withInput l) = mapState (fun v => v.withInput l) (execDivu a b s) := by
  simp only [execDivu, apply_ite (mapState _)]
  rfl

theorem execLis_withInput (d : Reg) :
    execLis d (s.withInput l) = mapState (fun v => v.withInput l) (execLis d s) := by
  simp only [execLis, apply_ite (mapState _)]
  rfl

/-- A `lw` that does not poll is an ordinary access. -/
theorem execLw_withInput {b t : Reg} {imm : Word} (hm : effectiveAddress s b imm ≠ s.cfg.mmioInAddr) :
    execLw b t imm (s.withInput l) = mapState (fun v => v.withInput l) (execLw b t imm s) := by
  rw [execLw_of_not_mmio hm, execLw_of_not_mmio (s := s.withInput l) hm]
  exact checkedAccess_withInput s.advance l _ rfl

theorem execSw_withInput (b t : Reg) (imm : Word) :
    execSw b t imm (s.withInput l) = mapState (fun v => v.withInput l) (execSw b t imm s) := by
  by_cases hm : effectiveAddress s b imm = s.cfg.mmioOutAddr
  · rw [execSw_of_mmio hm, execSw_of_mmio (s := s.withInput l) hm]
    rfl
  · rw [execSw_of_not_mmio hm, execSw_of_not_mmio (s := s.withInput l) hm]
    exact checkedAccess_withInput s.advance l _ rfl

/-- An instruction that does not poll the input channel neither reads nor changes it. -/
theorem exec_withInput {i : Instr} (h : readsInput i s = false) :
    exec i (s.withInput l) = mapState (fun v => v.withInput l) (exec i s) := by
  cases i with
  | div a b => exact execDiv_withInput s l a b
  | divu a b => exact execDivu_withInput s l a b
  | lis d => exact execLis_withInput s l d
  | beq a b imm => exact branchIf_withInput s l _ imm
  | bne a b imm => exact branchIf_withInput s l _ imm
  | lw b t imm => exact execLw_withInput s l (beq_eq_false_iff_ne.1 h)
  | sw b t imm => exact execSw_withInput s l b t imm
  | _ => rfl

end

/-- Settles O27: the checks of the fetch and the fetched word do not depend on the channel, nor does an instruction
that does not poll it. -/
theorem inputSeenOnlyByPolling : Obligations.InputSeenOnlyByPolling := by
  unfold Obligations.InputSeenOnlyByPolling
  intro s l unpolled
  obtain ⟨ha, e⟩ | ⟨ha, hh, e⟩ | ⟨ha, hh, hr, e⟩ | ⟨hok, ⟨bad, hd⟩, e⟩ | ⟨i, runs, e⟩ := step_cases s <;> rw [e]
  · exact (FetchStop.unaligned (s := s.withInput l) ha).step_eq
  · exact (FetchStop.halted (s := s.withInput l) ha hh).step_eq
  · exact (FetchStop.outOfRange (s := s.withInput l) ha hh (Nat.not_lt.1 hr)).step_eq
  · exact step_of_decode_error (s := s.withInput l) hok hd
  · obtain ⟨hok, hd⟩ := runs
    rw [step_of_decode_ok (s := s.withInput l) hok hd]
    exact exec_withInput s l (unpolled i ⟨hok, hd⟩)

end Sys2Proof.Machine
end

section
/-! ### Runs and the step loop (R152, R153, R155) -/

namespace Sys2Proof.Machine

section
variable {n : Nat} {s t : State} {f : Fault} {r : Run}

/-! #### The step loop -/

theorem stepLoop_zero (s : State) : stepLoop 0 s = none := rfl

theorem stepLoop_of_next (h : step s = .next t) : stepLoop (n + 1) s = stepLoop n t := by
  rw [stepLoop, h]

theorem stepLoop_of_fault (h : step s = .fault f) :
    stepLoop (n + 1) s = some { state := f.final, status := f.status } := by
  rw [stepLoop, h]

/-- Fewer than `n` steps from `s` continue before one stops, and `r` is the run that this stop ends. -/
def StopsWithin (n : Nat) (s : State) (r : Run) : Prop :=
  ∃ (k : Nat) (u : State) (f : Fault), k < n ∧ Continues k s u ∧ step u = .fault f ∧
    r = { state := f.final, status := f.status }

theorem not_stopsWithin_zero : ¬ StopsWithin 0 s r := fun ⟨k, _, _, hk, _⟩ => Nat.not_lt_zero k hk

theorem stopsWithin_of_next (h : step s = .next t) : StopsWithin (n + 1) s r ↔ StopsWithin n t r := by
  constructor
  · rintro ⟨k, u, f, hk, run, stop, hr⟩
    cases run with
    | zero => cases h.symm.trans stop
    | succ k _ t' _ first rest =>
      cases h.symm.trans first
      exact ⟨k, u, f, Nat.lt_of_succ_lt_succ hk, rest, stop, hr⟩
  · rintro ⟨k, u, f, hk, run, stop, hr⟩
    exact ⟨k + 1, u, f, Nat.succ_lt_succ hk, .succ k s t u h run, stop, hr⟩

theorem stopsWithin_of_fault (h : step s = .fault f) :
    StopsWithin (n + 1) s r ↔ r = { state := f.final, status := f.status } := by
  constructor
  · rintro ⟨k, u, f', -, run, stop, hr⟩
    cases run with
    | zero =>
      cases h.symm.trans stop
      exact hr
    | succ k _ t _ first _ => cases h.symm.trans first
  · exact fun hr => ⟨0, s, f, n.succ_pos, .zero s, h, hr⟩

/-- The loop and the steps it makes go on together, and stop together. -/
theorem stepLoop_eq_some_iff : stepLoop n s = some r ↔ StopsWithin n s r := by
  induction n generalizing s with
  | zero => exact iff_of_false (Option.some_ne_none r).symm not_stopsWithin_zero
  | succ n ih =>
    obtain ⟨t, e⟩ | ⟨f, e⟩ := step_next_or_fault s
    · rw [stepLoop_of_next e, stopsWithin_of_next e, ih]
    · rw [stepLoop_of_fault e, stopsWithin_of_fault e, Option.some_inj, eq_comm]

/-! #### One step of a run -/

theorem Fault.status_terminal (f : Fault) : f.status.terminal = true := by cases f <;> rfl

theorem Run.advance_of_terminal (h : r.status.terminal = true) :
    r.advance = .refused (.steppedAfterTerminal r.status) := if_pos h

theorem Run.advance_of_next (h : r.status.terminal = false) (e : step r.state = .next t) :
    r.advance = .next { state := t, status := .continuing t.pc } := by
  simp only [Run.advance, h, e, Bool.false_eq_true, if_false]

theorem Run.advance_of_fault (h : r.status.terminal = false) (e : step r.state = .fault f) :
    r.advance = .next { state := f.final, status := f.status } := by
  simp only [Run.advance, h, e, Bool.false_eq_true, if_false]

end

/-- Settles O45, by induction on the fuel. -/
theorem stepLoopReturnsFirstStop : Obligations.StepLoopReturnsFirstStop := by
  unfold Obligations.StepLoopReturnsFirstStop
  exact fun _ _ _ => stepLoop_eq_some_iff

/-- Settles O46: a terminal run is refused a step, and every other run makes the step of its state. -/
theorem terminalStatusIsFinal : Obligations.TerminalStatusIsFinal := by
  unfold Obligations.TerminalStatusIsFinal
  refine ⟨fun s => rfl, fun r terminal r' e => ?_, fun r going => ?_⟩
  · cases (Run.advance_of_terminal terminal).symm.trans e
  · obtain ⟨t, e⟩ | ⟨f, e⟩ := step_next_or_fault r.state
    · exact .inl ⟨t, e, Run.advance_of_next going e⟩
    · exact .inr ⟨f, e, f.status_terminal, Run.advance_of_fault going e⟩

end Sys2Proof.Machine
end

/-! # The ALU (41_alu.md): arithmetic, comparison, multiply, divide and the moves from HI and LO -/

section
/-! ### The register-form rows of the opcode table (R101, R113) -/

namespace Sys2Proof

theorem OpcodeMap.default_wf : OpcodeMap.default.wf = true := by decide

end Sys2Proof

namespace Sys2Proof.Machine

/-- A word that matches an operation's row has a zero opcode and that operation's function code, so it decodes to the
operation with the word's own fields as operands. -/
theorem rowDecodes_rRow (op : ROp) :
    RowDecodes 0xFC00003F#32 (rWord 0#5 0#5 0#5 (OpcodeMap.default.funct op))
      (fun w => op.instr (dField w) (sField w) (tField w)) := by
  intro w h
  have maskOpcode : opcodeField 0xFC00003F#32 = BitVec.allOnes 6 := rfl
  have maskFunct : functField 0xFC00003F#32 = BitVec.allOnes 6 := rfl
  have opcode : opcodeField w = 0#6 := by
    simpa only [opcodeField_and, maskOpcode, BitVec.and_allOnes, opcodeField_rWord] using congrArg opcodeField h
  have funct : functField w = OpcodeMap.default.funct op := by
    simpa only [functField_and, maskFunct, BitVec.and_allOnes, functField_rWord] using congrArg functField h
  exact decode_of_opcode_zero opcode (funct ▸ rtab_funct OpcodeMap.default OpcodeMap.default_wf op)

end Sys2Proof.Machine
end

section
/-! ### A result in a general register: `add`, `sub`, `slt`, `sltu`, `mfhi`, `mflo` (R170, R171, R176 to R179) -/

namespace Sys2Proof.Machine

/-- Writing a result completes, and changes the destination and pc alone. -/
theorem writeResult_onlyRegWritten (d : Reg) (v : Word) (s : State) :
    ∃ t, writeResult d v s = .next t ∧ OnlyRegWritten d v s t :=
  ⟨_, rfl, onlyRegWritten_commit d v s⟩

/-- Subtraction wraps around modulo 2^32 (R171). -/
theorem ofInt_toInt_sub (x y : Word) : BitVec.ofInt 32 (x.toInt - y.toInt) = x - y := by
  apply BitVec.eq_of_toInt_eq
  rw [BitVec.toInt_ofInt, BitVec.toInt_sub]

theorem boolWord_lessSigned (x y : Word) :
    boolWord (lessSigned x y) = if x.toInt < y.toInt then 1#32 else 0#32 := by
  simp only [boolWord, lessSigned, decide_eq_true_eq]

theorem boolWord_lessUnsigned (x y : Word) :
    boolWord (lessUnsigned x y) = if x.toNat < y.toNat then 1#32 else 0#32 := by
  simp only [boolWord, lessUnsigned, decide_eq_true_eq]

/-- Settles O28: both write their wrapped result, which is the exact one modulo 2^32. -/
theorem addAndSubWrap : Obligations.AddAndSubWrap := by
  unfold Obligations.AddAndSubWrap
  refine ⟨rowDecodes_rRow .add, rowDecodes_rRow .sub, fun s d a b => ⟨?_, ?_⟩⟩
  · rw [← BitVec.add_def]
    exact writeResult_onlyRegWritten d _ s
  · rw [ofInt_toInt_sub]
    exact writeResult_onlyRegWritten d _ s

/-- Settles O35: both write their comparison's result as 1 or 0. -/
theorem setOnLessThan : Obligations.SetOnLessThan := by
  unfold Obligations.SetOnLessThan
  refine ⟨rowDecodes_rRow .slt, rowDecodes_rRow .sltu, fun s d a b => ⟨?_, ?_⟩⟩
  · rw [← boolWord_lessSigned]
    exact writeResult_onlyRegWritten d _ s
  · rw [← boolWord_lessUnsigned]
    exact writeResult_onlyRegWritten d _ s

/-- Settles O34: both write the register they copy, which the instruction leaves as it was. -/
theorem moveFromHiAndLo : Obligations.MoveFromHiAndLo := by
  unfold Obligations.MoveFromHiAndLo
  exact ⟨rowDecodes_rRow .mfhi, rowDecodes_rRow .mflo, fun s d =>
    ⟨writeResult_onlyRegWritten d s.hi s, writeResult_onlyRegWritten d s.lo s⟩⟩

end Sys2Proof.Machine
end

section
/-! ### A result in `hi` and `lo`: `mult`, `multu` and the exact product (R172, R173, R180) -/

namespace Sys2Proof.Machine

/-- The pair `hi`, `lo` written before the commit, with pc at `A + 4`, is all that a completed instruction changes. -/
theorem onlyHiLoWritten_commit (hi lo : Word) (s : State) :
    OnlyHiLoWritten hi lo s ((s.advance.setHiLo hi lo).writeReg 0#5 0#32) := by
  refine ⟨rfl, rfl, rfl, fun q => ?_, fun _ => rfl, ⟨rfl, rfl⟩, rfl⟩
  rw [readReg_writeReg, setHiLo_readReg, advance_readReg]

/-- Writing a product completes, and changes `hi`, `lo` and pc alone. -/
theorem writeProduct_onlyHiLoWritten (p : BitVec 64) (s : State) :
    ∃ t, writeProduct p s = .next t ∧ OnlyHiLoWritten (p.extractLsb' 32 32) (p.extractLsb' 0 32) s t :=
  ⟨_, rfl, onlyHiLoWritten_commit _ _ s⟩

/-- The two halves of a written product join into it. -/
theorem hi_append_lo_of_writeProduct {p : BitVec 64} {s t : State} (h : writeProduct p s = .next t) :
    t.hi ++ t.lo = p := by
  rw [(complete_next_iff _ t).1 h]
  exact (BitVec.extractLsb'_append_extractLsb'_eq_extractLsb' rfl).trans BitVec.extractLsb'_eq_self

/-- The product of two signed words is a signed 64-bit value. -/
theorem toInt_ofInt_mul (x y : Word) : (BitVec.ofInt 64 (x.toInt * y.toInt)).toInt = x.toInt * y.toInt := by
  have low : -2 ^ (32 * 2 - 2) ≤ x.toInt * y.toInt := BitVec.le_toInt_mul_toInt
  have high : x.toInt * y.toInt ≤ 2 ^ (32 * 2 - 2) := BitVec.toInt_mul_toInt_le
  exact BitVec.toInt_ofInt_eq_self (by decide) (by omega) (by omega)

/-- The product of two unsigned words is an unsigned 64-bit value. -/
theorem toNat_ofNat_mul (x y : Word) : (BitVec.ofNat 64 (x.toNat * y.toNat)).toNat = x.toNat * y.toNat := by
  rw [BitVec.toNat_ofNat, Nat.mod_eq_of_lt BitVec.toNat_mul_toNat_lt]

/-- Settles O29: both write the two halves of their 64-bit product. -/
theorem multiplyIntoHiLo : Obligations.MultiplyIntoHiLo := by
  unfold Obligations.MultiplyIntoHiLo
  exact ⟨rowDecodes_rRow .mult, rowDecodes_rRow .multu, fun s a b =>
    ⟨writeProduct_onlyHiLoWritten _ s, writeProduct_onlyHiLoWritten _ s⟩⟩

/-- Settles O30: the two halves join into the 64-bit product, and the exact product fits in 64 bits. -/
theorem productsAreExact : Obligations.ProductsAreExact := by
  unfold Obligations.ProductsAreExact
  refine fun s t a b => ⟨fun h => ?_, fun h => ?_⟩
  · rw [hi_append_lo_of_writeProduct h, toInt_ofInt_mul]
  · rw [hi_append_lo_of_writeProduct h, toNat_ofNat_mul]

end Sys2Proof.Machine
end

section
/-! ### Division: when it stops, what it writes, and the law of the signed one (R174, R175, R181 to R183) -/

namespace Sys2Proof.Machine

/-- Writing a quotient and a remainder completes, and changes `hi`, `lo` and pc alone. -/
theorem writeQuotient_onlyHiLoWritten (q r : Int) (s : State) :
    ∃ t, writeQuotient q r s = .next t ∧ OnlyHiLoWritten (BitVec.ofInt 32 r) (BitVec.ofInt 32 q) s t :=
  ⟨_, rfl, onlyHiLoWritten_commit _ _ s⟩

/-- The operands at which a signed division overflows: the least dividend and the divisor -1 (R183). -/
def DivOverflows (x y : Word) : Prop := x = 0x80000000#32 ∧ y = 0xFFFFFFFF#32

theorem divOverflows_iff_toInt (x y : Word) : DivOverflows x y ↔ x.toInt = -2147483648 ∧ y.toInt = -1 :=
  and_congr (BitVec.toInt_inj (y := 0x80000000#32)).symm (BitVec.toInt_inj (y := 0xFFFFFFFF#32)).symm

theorem toInt_eq_zero_iff (x : Word) : x.toInt = 0 ↔ x = 0#32 := BitVec.toInt_inj (y := 0#32)

theorem toNat_eq_zero_iff (x : Word) : x.toNat = 0 ↔ x = 0#32 := BitVec.toNat_inj (y := 0#32)

/-! #### How `div` and `divu` end -/

section
variable {s : State} {a b : Reg}

theorem exec_div_of_zero (h : s.readReg b = 0#32) :
    exec (.div a b) s = .fault (.invalidInstruction s.pc { s with pc := s.pc + 4#32 }) :=
  execDiv_of_zero ((toInt_eq_zero_iff _).2 h)

theorem exec_div_of_overflow (h : DivOverflows (s.readReg a) (s.readReg b)) :
    exec (.div a b) s = .fault (.invalidInstruction s.pc { s with pc := s.pc + 4#32 }) := by
  have overflow := (divOverflows_iff_toInt _ _).1 h
  exact execDiv_of_overflow (by omega) overflow

theorem exec_div_divides (hz : s.readReg b ≠ 0#32) (ho : ¬ DivOverflows (s.readReg a) (s.readReg b)) :
    ∃ t, exec (.div a b) s = .next t ∧
      OnlyHiLoWritten
        (BitVec.ofInt 32 ((s.readReg a).toInt -
          (s.readReg a).toInt.tdiv (s.readReg b).toInt * (s.readReg b).toInt))
        (BitVec.ofInt 32 ((s.readReg a).toInt.tdiv (s.readReg b).toInt)) s t := by
  have divides := execDiv_of_completes (mt (toInt_eq_zero_iff _).1 hz) (mt (divOverflows_iff_toInt _ _).2 ho)
  obtain ⟨t, e, written⟩ := writeQuotient_onlyHiLoWritten _ _ s
  exact ⟨t, divides.trans e, written⟩

theorem exec_divu_of_zero (h : s.readReg b = 0#32) :
    exec (.divu a b) s = .fault (.invalidInstruction s.pc { s with pc := s.pc + 4#32 }) :=
  execDivu_of_zero ((toNat_eq_zero_iff _).2 h)

theorem exec_divu_divides (h : s.readReg b ≠ 0#32) :
    ∃ t, exec (.divu a b) s = .next t ∧
      OnlyHiLoWritten (BitVec.ofNat 32 ((s.readReg a).toNat % (s.readReg b).toNat))
        (BitVec.ofNat 32 ((s.readReg a).toNat / (s.readReg b).toNat)) s t := by
  rw [← BitVec.ofInt_natCast, ← BitVec.ofInt_natCast]
  have divides := execDivu_of_completes (a := a) (mt (toNat_eq_zero_iff _).1 h)
  obtain ⟨t, e, written⟩ := writeQuotient_onlyHiLoWritten _ _ s
  exact ⟨t, divides.trans e, written⟩

end

/-- Settles O31: the two stops and the division of `div`. -/
theorem divideSigned : Obligations.DivideSigned := by
  unfold Obligations.DivideSigned
  exact ⟨rowDecodes_rRow .div, fun s a b =>
    ⟨exec_div_of_zero, fun hx hy => exec_div_of_overflow ⟨hx, hy⟩, exec_div_divides⟩⟩

/-- Settles O32: the stop and the division of `divu`. -/
theorem divideUnsigned : Obligations.DivideUnsigned := by
  unfold Obligations.DivideUnsigned
  exact ⟨rowDecodes_rRow .divu, fun s a b => ⟨exec_divu_of_zero, exec_divu_divides⟩⟩

/-! #### The law of signed division (R181, D12) -/

/-- Without overflow the quotient of two signed words is a signed word. -/
theorem toInt_ofInt_tdiv {x y : Word} (h : ¬ DivOverflows x y) :
    (BitVec.ofInt 32 (x.toInt.tdiv y.toInt)).toInt = x.toInt.tdiv y.toInt := by
  rw [← BitVec.toInt_sdiv_of_ne_or_ne x y (not_and_or.1 h), BitVec.ofInt_toInt]

/-- The remainder of two signed words is a signed word, the one of the division that truncates toward zero. -/
theorem toInt_ofInt_sub_tdiv_mul (x y : Word) :
    (BitVec.ofInt 32 (x.toInt - x.toInt.tdiv y.toInt * y.toInt)).toInt = x.toInt.tmod y.toInt := by
  rw [mul_comm, ← Int.tmod_def, ← BitVec.toInt_srem, BitVec.ofInt_toInt]

theorem natAbs_tmod_lt (a : Int) {b : Int} (hb : b ≠ 0) : (a.tmod b).natAbs < b.natAbs := by
  rw [Int.natAbs_tmod]
  exact Nat.mod_lt _ (Int.natAbs_pos.2 hb)

/-- A positive remainder is that of a positive dividend. -/
theorem pos_of_tmod_pos {a b : Int} (h : 0 < a.tmod b) : 0 < a := by
  by_contra hn
  have nonneg : 0 ≤ (-a).tmod b := Int.tmod_nonneg b (by omega)
  rw [Int.neg_tmod] at nonneg
  omega

/-- A negative remainder is that of a negative dividend. -/
theorem neg_of_tmod_neg {a b : Int} (h : a.tmod b < 0) : a < 0 := by
  by_contra hn
  exact absurd (Int.tmod_nonneg b (not_lt.1 hn)) (not_le.2 h)

/-- Settles O33: where `div` does not stop, `lo` and `hi` read as signed words are the quotient and the remainder of the
division of integers that truncates toward zero. -/
theorem signedDivisionLaw : Obligations.SignedDivisionLaw := by
  unfold Obligations.SignedDivisionLaw
  intro s a b
  split_ifs with h
  · exact h.elim exec_div_of_zero exec_div_of_overflow
  · obtain ⟨hz, ho⟩ := not_or.1 h
    obtain ⟨t, e, -, hhi, hlo, -⟩ := exec_div_divides hz ho
    have quotient : t.lo.toInt = (s.readReg a).toInt.tdiv (s.readReg b).toInt := by
      rw [hlo, toInt_ofInt_tdiv ho]
    have remainder : t.hi.toInt = (s.readReg a).toInt.tmod (s.readReg b).toInt := by
      rw [hhi, toInt_ofInt_sub_tdiv_mul]
    refine ⟨t, e, ?_⟩
    rw [quotient, remainder]
    exact ⟨(Int.tdiv_mul_add_tmod _ _).symm, natAbs_tmod_lt _ (mt (toInt_eq_zero_iff _).1 hz),
      pos_of_tmod_pos, neg_of_tmod_neg, Int.natAbs_tdiv _ _⟩

end Sys2Proof.Machine
end

/-! # Branches and jumps (42_branch_jump.md): `jr`, `jalr`, `beq` and `bne` -/

section
/-! ### What a jump leaves, and the next step at its target (R141 to R143, R220, R221) -/

namespace Sys2Proof.Machine

/-- A new pc before the commit is all that a completed instruction changes. -/
theorem onlyPcWritten_commit (a : Word) (s : State) : OnlyPcWritten a s ((s.setPc a).writeReg 0#5 0#32) := by
  refine ⟨rfl, fun q => ?_, ⟨rfl, rfl⟩, fun _ => rfl, ⟨rfl, rfl⟩, rfl⟩
  rw [readReg_writeReg, setPc_readReg]

/-- Settles O37: the link and the target are both read from the state before the jump, and the commit comes last. -/
theorem jumpAndLinkRegister : Obligations.JumpAndLinkRegister := by
  unfold Obligations.JumpAndLinkRegister
  refine ⟨rowDecodes_rRow .jalr, fun s a => ?_⟩
  refine ⟨_, rfl, rfl, fun q => ?_, ⟨rfl, rfl⟩, fun _ => rfl, ⟨rfl, rfl⟩, rfl⟩
  rw [readReg_writeReg, setPc_readReg, readReg_writeReg, advance_readReg]
  rfl

/-- Settles O36: the jump completes whatever its target, and a bad target is a stop of the next step's fetch. -/
theorem jumpRegister : Obligations.JumpRegister := by
  unfold Obligations.JumpRegister
  refine ⟨rowDecodes_rRow .jr, fun s a => ?_⟩
  exact ⟨_, rfl, onlyPcWritten_commit (s.readReg a) s, fun ha => (FetchStop.unaligned ha).step_eq,
    fun ha hh => (FetchStop.halted ha hh).step_eq, fun ha hh hr => (FetchStop.outOfRange ha hh hr).step_eq⟩

end Sys2Proof.Machine
end

section
/-! ### Conditional branches: the rows of the opcode table, the target and its reach (R113, R222 to R224) -/

namespace Sys2Proof.Machine

/-- A word that matches an operation's row has that operation's opcode, which is not zero, so it decodes to the
operation with the word's own fields as operands. -/
theorem rowDecodes_iRow (op : IOp) :
    RowDecodes 0xFC000000#32 (iWord (OpcodeMap.default.opcode op) 0#5 0#5 0#32)
      (fun w => op.instr (sField w) (tField w) (immField w)) := by
  intro w h
  obtain ⟨-, -, nonzero⟩ := (OpcodeMap.wf_iff _).1 OpcodeMap.default_wf
  have opcode : opcodeField w = OpcodeMap.default.opcode op := by
    simpa only [and_iRow_mask, opcodeField_iWord] using congrArg opcodeField h
  rw [decode, descriptor_of_opcode_ne_zero (opcode ▸ nonzero op), dispatch, opcode,
    itab_opcode OpcodeMap.default OpcodeMap.default_wf op]

/-- The target of a branch is its immediate in words past the address after the branch (R222). -/
theorem branchTarget_eq (pc imm : Word) : branchTarget pc imm = pc + 4#32 * imm := by
  rw [branchTarget, BitVec.shiftLeft_eq_mul_twoPow, BitVec.mul_comm]
  rfl

/-- A branch completes and changes pc alone: the target when its condition holds, and `A + 4` when it does not. -/
theorem branchIf_onlyPcWritten (cond : Bool) (imm : Word) (s : State) :
    ∃ t, branchIf cond imm s = .next t ∧
      OnlyPcWritten (if cond then s.pc + 4#32 + 4#32 * imm else s.pc + 4#32) s t := by
  rw [← branchTarget_eq]
  cases cond with
  | true => exact ⟨_, rfl, onlyPcWritten_commit (branchTarget (s.pc + 4#32) imm) s⟩
  | false => exact ⟨_, rfl, onlyPcWritten_commit (s.pc + 4#32) s⟩

/-- An encoded offset is four times the signed value of the 16-bit field. -/
theorem four_mul_signExtend (v : BitVec 16) : 4#32 * v.signExtend 32 = BitVec.ofInt 32 (4 * v.toInt) :=
  (BitVec.ofInt_mul 4 v.toInt).symm

/-- A multiple of 4 in the reach of a branch is four times the signed value of a 16-bit field (R223). -/
theorem exists_four_mul_toInt {k : Int} (low : -131072 ≤ k) (high : k ≤ 131068) (aligned : k % 4 = 0) :
    ∃ v : BitVec 16, 4 * v.toInt = k := by
  refine ⟨BitVec.ofInt 16 (k / 4), ?_⟩
  rw [BitVec.toInt_ofInt_eq_self (by decide) (by omega) (by omega)]
  omega

/-- Settles O38: both are a branch on their comparison, and a field's offset is four times its signed value. -/
theorem conditionalBranches : Obligations.ConditionalBranches := by
  unfold Obligations.ConditionalBranches
  refine ⟨rowDecodes_iRow .beq, rowDecodes_iRow .bne, fun s a b imm => ⟨?_, ?_⟩, fun v => ?_,
    fun k low high aligned => ?_⟩
  · have branch := branchIf_onlyPcWritten (s.readReg a == s.readReg b) imm s
    simp only [beq_iff_eq] at branch
    exact branch
  · have branch := branchIf_onlyPcWritten (s.readReg a != s.readReg b) imm s
    simp only [bne_iff_ne, ite_not] at branch
    exact branch
  · have low := BitVec.le_toInt v
    have high := BitVec.toInt_lt (x := v)
    exact ⟨4 * v.toInt, by omega, by omega, by omega, four_mul_signExtend v⟩
  · obtain ⟨v, rfl⟩ := exists_four_mul_toInt low high aligned
    exact ⟨v, four_mul_signExtend v⟩

end Sys2Proof.Machine
end

/-! # Loads and stores (43_load_store.md): `lis`, `lw` and `sw` -/

section
/-! ### Character input and output (R71, R72) -/

namespace Sys2Proof.Machine

section
variable {s : State} {b r : Reg} {imm ba : Word}

theorem exec_lw_reads_byte (hba : effectiveAddress s b imm = ba) (hm : ba = s.cfg.mmioInAddr) {c : Byte}
    {rest : List Byte} (hin : s.input = c :: rest) :
    ∃ t, exec (.lw b r imm) s = .next t ∧ t.pc = s.pc + 4#32 ∧ RegWritten r (BitVec.ofNat 32 c.toNat) s t ∧
      t.input = rest ∧ t.output = s.output ∧ HiLoKept s t ∧ MemKept s t ∧ CfgKept s t := by
  refine ⟨_, execLw_of_mmio_byte (hba.trans hm) hin, rfl, fun q => ?_, rfl, rfl, ⟨rfl, rfl⟩, fun _ => rfl, rfl⟩
  rw [readReg_writeReg, readReg_writeReg, withInput_readReg, advance_readReg, BitVec.ofNat_toNat]

theorem exec_lw_of_no_input (hba : effectiveAddress s b imm = ba) (hm : ba = s.cfg.mmioInAddr)
    (hin : s.input = []) :
    ∃ t, exec (.lw b r imm) s = .next t ∧ OnlyPcWritten (s.pc + 4#32) s t :=
  ⟨_, execLw_of_mmio_empty (hba.trans hm) hin, onlyPcWritten_commit (s.pc + 4#32) s⟩

theorem exec_sw_emits_byte (hba : effectiveAddress s b imm = ba) (hm : ba = s.cfg.mmioOutAddr) :
    ∃ t, exec (.sw b r imm) s = .next t ∧ t.pc = s.pc + 4#32 ∧
      t.output = s.output ++ [BitVec.ofNat 8 (s.readReg r).toNat] ∧ t.input = s.input ∧
      RegsKept s t ∧ HiLoKept s t ∧ MemKept s t ∧ CfgKept s t := by
  refine ⟨_, execSw_of_mmio (hba.trans hm), rfl, rfl, rfl, fun q => ?_, ⟨rfl, rfl⟩, fun _ => rfl, rfl⟩
  rw [readReg_writeReg, outByte_readReg, advance_readReg]

end

end Sys2Proof.Machine
end

section
/-! ### The three instructions on every path (R250 to R252) -/

namespace Sys2Proof.Machine

/-- Settles O39: the range of the inline word alone decides, and the word is read at `A + 4` whatever it is. -/
theorem loadImmediateSuccessor : Obligations.LoadImmediateSuccessor := by
  unfold Obligations.LoadImmediateSuccessor
  exact ⟨rowDecodes_rRow .lis, fun _ _ => ⟨exec_lis_reads, exec_lis_of_outOfRange⟩⟩

/-- Settles O40: the intercept of `MMIO_IN_ADDR` splits on the input channel, and any other address on the checks. -/
theorem loadWord : Obligations.LoadWord := by
  unfold Obligations.LoadWord
  refine ⟨rowDecodes_iRow .lw, fun s b r imm ba hba => ⟨hba.symm, ?_, ?_, ?_, ?_, ?_⟩⟩
  · exact fun hm _ _ => exec_lw_reads_byte hba hm
  · exact exec_lw_of_no_input hba
  · exact exec_lw_of_outOfRange hba
  · exact exec_lw_of_unaligned hba
  · exact exec_lw_loads hba

/-- Settles O41: `MMIO_OUT_ADDR` never reaches memory, and any other address is split by the checks; the stored word
and the bytes around it come from canonical memory. -/
theorem storeWord : Obligations.StoreWord := by
  unfold Obligations.StoreWord
  refine ⟨rowDecodes_iRow .sw, fun s b r imm ba hwf hba => ⟨hba.symm, ?_, ?_, ?_, ?_⟩⟩
  · exact exec_sw_emits_byte hba
  · exact exec_sw_of_outOfRange hba
  · exact exec_sw_of_unaligned hba
  · exact exec_sw_stores hwf hba

end Sys2Proof.Machine
end

/-! # Exceptions (60_exceptions.md): the statuses of the handlers, each exactly when it is raised -/

section
/-! ### `InvalidInstruction` (R307) -/

namespace Sys2Proof.Machine

/-- Settles O16: the slot's handler, a zero divisor and the signed overflow are the stops that raise it, and each of
them does. -/
theorem invalidInstructionExactly : Obligations.InvalidInstructionExactly := by
  unfold Obligations.InvalidInstructionExactly
  intro s final v
  constructor
  · intro h
    obtain ⟨⟨⟩⟩ | ⟨hok, bad, ⟨⟩⟩ | ⟨i, ⟨hok, hd⟩, stop⟩ := step_fault h
    · exact ⟨hok, rfl, rfl, .inl bad⟩
    · cases stop with
      | @divByZero a b hz =>
        exact ⟨hok, rfl, rfl, .inr (.inl ⟨a, b, .inl hd, (toInt_eq_zero_iff _).1 hz⟩)⟩
      | @divuByZero a b hz =>
        exact ⟨hok, rfl, rfl, .inr (.inl ⟨a, b, .inr hd, (toNat_eq_zero_iff _).1 hz⟩)⟩
      | @divOverflow a b ho =>
        exact ⟨hok, rfl, rfl, .inr (.inr ⟨a, b, hd, (divOverflows_iff_toInt _ _).2 ho⟩)⟩
  · rintro ⟨hok, rfl, rfl, ⟨e, hd⟩ | ⟨a, b, hd | hd, hz⟩ | ⟨a, b, hd, ho⟩⟩
    · exact step_of_decode_error hok hd
    · exact (step_of_decode_ok hok hd).trans (exec_div_of_zero hz)
    · exact (step_of_decode_ok hok hd).trans (exec_divu_of_zero hz)
    · exact (step_of_decode_ok hok hd).trans (exec_div_of_overflow ho)

end Sys2Proof.Machine
end

section
/-! ### The two memory faults (R305, R306) -/

namespace Sys2Proof.Machine

/-- The word at pc is a `lw` or a `sw` with the address `v`, and no MMIO intercept takes it (R71, R72). -/
def OrdinaryAccess (s : State) (v : Word) : Prop :=
  ∃ b r imm, v = effectiveAddress s b imm ∧
    ((decode s.cfg.opcodes (s.memRead s.pc) = .ok (.lw b r imm) ∧ v ≠ s.cfg.mmioInAddr) ∨
     (decode s.cfg.opcodes (s.memRead s.pc) = .ok (.sw b r imm) ∧ v ≠ s.cfg.mmioOutAddr))

section
variable {s : State} {v : Word}

/-- The range check of an ordinary access comes first (R64). -/
theorem OrdinaryAccess.step_of_outOfRange (h : OrdinaryAccess s v) (hok : fetchOk s = true)
    (hr : s.cfg.memWords ≤ v.toNat / 4) :
    step s = .fault (.outOfRangeMemoryAccess v { s with pc := s.pc + 4#32 }) := by
  obtain ⟨b, r, imm, hv, ⟨hd, hm⟩ | ⟨hd, hm⟩⟩ := h
  · exact (step_of_decode_ok hok hd).trans (exec_lw_of_outOfRange hv.symm hm hr)
  · exact (step_of_decode_ok hok hd).trans (exec_sw_of_outOfRange hv.symm hm hr)

/-- The alignment check of an ordinary access follows where the range check passes (R65). -/
theorem OrdinaryAccess.step_of_unaligned (h : OrdinaryAccess s v) (hok : fetchOk s = true)
    (hr : v.toNat / 4 < s.cfg.memWords) (ha : v.toNat % 4 ≠ 0) :
    step s = .fault (.unalignedMemoryAccess v { s with pc := s.pc + 4#32 }) := by
  obtain ⟨b, r, imm, hv, ⟨hd, hm⟩ | ⟨hd, hm⟩⟩ := h
  · exact (step_of_decode_ok hok hd).trans (exec_lw_of_unaligned hv.symm hm hr ha)
  · exact (step_of_decode_ok hok hd).trans (exec_sw_of_unaligned hv.symm hm hr ha)

end

theorem step_unalignedMemoryAccess_iff (s final : State) (v : Word) :
    step s = .fault (.unalignedMemoryAccess v final) ↔
      fetchOk s = true ∧ final = { s with pc := s.pc + 4#32 } ∧
      v.toNat / 4 < s.cfg.memWords ∧ v.toNat % 4 ≠ 0 ∧ OrdinaryAccess s v := by
  constructor
  · intro h
    obtain ⟨⟨⟩⟩ | ⟨-, -, ⟨⟩⟩ | ⟨i, ⟨hok, hd⟩, stop⟩ := step_fault h
    cases stop with
    | @lwUnaligned b t imm hm hr ha => exact ⟨hok, rfl, hr, ha, b, t, imm, rfl, .inl ⟨hd, hm⟩⟩
    | @swUnaligned b t imm hm hr ha => exact ⟨hok, rfl, hr, ha, b, t, imm, rfl, .inr ⟨hd, hm⟩⟩
  · rintro ⟨hok, rfl, hr, ha, access⟩
    exact access.step_of_unaligned hok hr ha

theorem step_outOfRangeMemoryAccess_iff (s final : State) (v : Word) :
    step s = .fault (.outOfRangeMemoryAccess v final) ↔
      fetchOk s = true ∧ final = { s with pc := s.pc + 4#32 } ∧ s.cfg.memWords ≤ v.toNat / 4 ∧
      (OrdinaryAccess s v ∨
       ∃ d, decode s.cfg.opcodes (s.memRead s.pc) = .ok (.lis d) ∧ v = s.pc + 4#32) := by
  constructor
  · intro h
    obtain ⟨⟨⟩⟩ | ⟨-, -, ⟨⟩⟩ | ⟨i, ⟨hok, hd⟩, stop⟩ := step_fault h
    cases stop with
    | @lwOutOfRange b t imm hm hr => exact ⟨hok, rfl, hr, .inl ⟨b, t, imm, rfl, .inl ⟨hd, hm⟩⟩⟩
    | @swOutOfRange b t imm hm hr => exact ⟨hok, rfl, hr, .inl ⟨b, t, imm, rfl, .inr ⟨hd, hm⟩⟩⟩
    | @lisOutOfRange d hr => exact ⟨hok, rfl, hr, .inr ⟨d, hd, rfl⟩⟩
  · rintro ⟨hok, rfl, hr, access | ⟨d, hd, rfl⟩⟩
    · exact access.step_of_outOfRange hok hr
    · exact (step_of_decode_ok hok hd).trans (exec_lis_of_outOfRange hr)

/-- Settles O17: only a `lw` or `sw` past its MMIO intercept raises either fault, and `lis` the one of the range. -/
theorem memoryFaultsExactly : Obligations.MemoryFaultsExactly := by
  unfold Obligations.MemoryFaultsExactly
  exact fun s final v => ⟨step_unalignedMemoryAccess_iff s final v, step_outOfRangeMemoryAccess_iff s final v⟩

end Sys2Proof.Machine
end

/-! # Reset (70_reset_and_hazards.md): creation and the launch state -/

section
/-! ### What creation answers, and that it is all zero (R11, R12, R340, R341) -/

namespace Sys2Proof.Machine

/-- Exactly the legal capacities have a number of words (R11). -/
theorem memWordsOf_eq_ok_iff {bytes n : Nat} :
    memWordsOf bytes = .ok n ↔
      (bytes = 0 ∨ (bytes % 4 = 0 ∧ bytes ≤ 4294967296)) ∧ n = if bytes = 0 then 4194304 else bytes / 4 := by
  by_cases legal : bytes = 0 ∨ (bytes % 4 = 0 ∧ bytes ≤ 4294967296)
  · rw [memWordsOf_of_legal legal, Except.ok.injEq, eq_comm]
    exact (and_iff_right legal).symm
  · simp only [memWordsOf_of_illegal (bytes := bytes) (by omega), legal, false_and, reduceCtorEq]

/-- With the number of words of a legal capacity, a configuration is legal when its other parameters are. -/
theorem wf_withMemWords_iff {bytes n : Nat} (h : memWordsOf bytes = .ok n) (cfg : Config) :
    ({ cfg with memWords := n } : Config).wf = true ↔
      cfg.haltAddr.toNat % 4 = 0 ∧ cfg.mmioOutAddr ≠ cfg.mmioInAddr ∧ cfg.opcodes.wf = true := by
  obtain ⟨legal, hn⟩ := memWordsOf_eq_ok_iff.1 h
  have low : 1 ≤ n := by split_ifs at hn <;> omega
  have high : n ≤ 2 ^ 30 := by split_ifs at hn <;> omega
  rw [Config.wf_iff]
  exact ⟨fun ⟨_, _, parameters⟩ => parameters, fun parameters => ⟨low, high, parameters⟩⟩

/-- Creation answers exactly when the capacity has a number of words and the configuration with it is legal; the answer
is the reset state with that configuration and the host's input. -/
theorem create_eq_ok_iff {bytes : Nat} {cfg : Config} {input : List Byte} {s : State} :
    create bytes cfg input = .ok s ↔
      ∃ n, memWordsOf bytes = .ok n ∧ ({ cfg with memWords := n } : Config).wf = true ∧
        s = { State.reset with cfg := { cfg with memWords := n }, input := input } := by
  constructor
  · intro h
    cases hn : memWordsOf bytes with
    | error r => cases (create_of_memWordsOf_error hn cfg input).symm.trans h
    | ok n =>
      by_cases hw : ({ cfg with memWords := n } : Config).wf = true
      · cases (create_of_wf hn hw input).symm.trans h
        exact ⟨n, rfl, hw, rfl⟩
      · cases (create_of_not_wf hn hw input).symm.trans h
  · rintro ⟨n, hn, hw, rfl⟩
    exact create_of_wf hn hw input

/-- Settles O7: creation answers with the reset state, which is all zero, and no step changes the configuration, of
which the capacity is a part. -/
theorem creationZeroesEverything : Obligations.CreationZeroesEverything := by
  unfold Obligations.CreationZeroesEverything
  obtain ⟨next_cfg, fault_cfg⟩ := configurationIsConstant
  refine ⟨fun bytes cfg input => ⟨?answers, ?answered⟩, ?zero, fun s t h => congrArg _ (next_cfg s t h),
    fun s f h => congrArg _ (fault_cfg s f h)⟩
  case answers =>
    rintro ⟨s, created⟩
    obtain ⟨n, hn, hw, -⟩ := create_eq_ok_iff.1 created
    exact ⟨(memWordsOf_eq_ok_iff.1 hn).1, (wf_withMemWords_iff hn cfg).1 hw⟩
  case answered =>
    rintro ⟨capacity, parameters⟩
    have hn := memWordsOf_of_legal capacity
    exact ⟨_, create_of_wf hn ((wf_withMemWords_iff hn cfg).2 parameters) input⟩
  case zero =>
    intro bytes cfg input s created
    obtain ⟨n, hn, -, rfl⟩ := create_eq_ok_iff.1 created
    obtain ⟨-, rfl⟩ := memWordsOf_eq_ok_iff.1 hn
    exact ⟨rfl, reset_readReg, rfl, rfl, rfl, readWord_nil, rfl, rfl⟩

end Sys2Proof.Machine
end

section
/-! ### What a launch answers and the state it leaves (R342 to R346) -/

namespace Sys2Proof.Machine

/-- A launch of a machine that was created is the load of the image into it. -/
theorem launch_of_create {bytes : Nat} {cfg : Config} {input : List Byte} {s : State}
    (h : create bytes cfg input = .ok s) (image : List Byte) : launch bytes cfg input image = load image s := by
  rw [launch, h]

/-- An image that fits is loaded: its words placed, `x[31]` and pc set. -/
theorem load_of_fits {image : List Byte} {ws : List Word} {s : State} (hws : imageWords image = some ws)
    (hfit : s.cfg.loadWord + ws.length ≤ s.cfg.memWords) :
    load image s = .ok (({ s with mem := placeWords s.mem s.cfg.loadWord ws }.writeReg 31#5 s.cfg.haltAddr).setPc
      (BitVec.ofNat 32 (4 * s.cfg.loadWord))) := by
  simp only [load, hws, if_pos hfit]

/-- An image that does not fit is refused. -/
theorem load_of_not_fits {image : List Byte} {ws : List Word} {s : State} (hws : imageWords image = some ws)
    (hfit : ¬ s.cfg.loadWord + ws.length ≤ s.cfg.memWords) : load image s = .error (.imageTooLarge ws.length) := by
  simp only [load, hws, if_neg hfit]

/-- An image that is no whole number of words is refused. -/
theorem load_of_partial_word {image : List Byte} (h : image.length % 4 ≠ 0) (s : State) :
    load image s = .error (.imageNotWords image.length) := by
  rw [load, imageWords_none image h]

/-- A word of a placed image reads back. -/
theorem readWord_placeWords_inside {m : Memory} (hm : m.wf) {ws : List Word} {k : Nat} {w : Word}
    (h : ws[k]? = some w) (base : Nat) : (placeWords m base ws).readWord (base + k) = w := by
  rw [readWord_placeWords ws m base _ hm, if_pos (Nat.le_add_right base k),
    Nat.add_sub_cancel_left, h, Option.getD_some]

/-- A word outside a placed image reads as before. -/
theorem readWord_placeWords_outside {m : Memory} (hm : m.wf) (ws : List Word) {base j : Nat}
    (h : j < base ∨ base + ws.length ≤ j) : (placeWords m base ws).readWord j = m.readWord j := by
  rw [readWord_placeWords ws m base j hm]
  obtain below | above := h
  · rw [if_neg (by omega)]
  · rw [List.getElem?_eq_none (by omega), Option.getD_none, ite_self]

/-- Settles O10: the created machine is all zero, and the load writes the image's words, `x[31]` and pc alone. -/
theorem launchState : Obligations.LaunchState := by
  unfold Obligations.LaunchState
  intro bytes cfg input image s n created
  rw [launch_of_create created]
  refine ⟨fun hlen hfit => ?_, fun h => load_of_partial_word h s⟩
  obtain ⟨-, zeroed, -⟩ := creationZeroesEverything
  obtain ⟨-, reg_zero, -, hhi, hlo, word_zero, hin, hout⟩ := zeroed bytes cfg input s created
  have hwf : s.mem.wf := (inv_of_create created).mem_wf
  obtain ⟨ws, hws, rfl, hword⟩ := imageWords_some image n hlen
  refine ⟨_, load_of_fits hws hfit, rfl, ?link, ?others, rfl, hhi, hlo,
    fun k hk => readWord_placeWords_inside hwf (hword k hk) _,
    fun j hj => (readWord_placeWords_outside hwf ws hj).trans (word_zero j), hin, hout⟩
  case link => rw [setPc_readReg, readReg_writeReg, if_pos rfl]
  case others =>
    intro r hr
    rw [setPc_readReg, readReg_writeReg, if_neg hr]
    exact reg_zero r

/-- Settles O11: an image of `4n` bytes is `n` words, and the load of words that do not fit is refused. -/
theorem tooLargeImageFails : Obligations.TooLargeImageFails := by
  unfold Obligations.TooLargeImageFails
  intro bytes cfg input image s n created hlen hlarge
  obtain ⟨ws, hws, rfl, -⟩ := imageWords_some image n hlen
  exact (launch_of_create created image).trans (load_of_not_fits hws (Nat.not_le.2 hlarge))

end Sys2Proof.Machine
end
